-- ==== Sys2Proof/Word.lean ====
section
/-! DEFINITION. The words of the command port (rules R60, R61): bytes, 32-bit data and operand words, 40-bit command words.
Arithmetic on time, samples and line entries is on `Nat` and `Int`, as rule R8 has it. -/

namespace Sys2Proof

/-- An operand byte `a` or `b` of format B, or a byte for a chip register (R64, R45). -/
abbrev Byte := BitVec 8

/-- The operand word `arg` and the response word `rsp_data` (R60, R61). -/
abbrev DataWord := BitVec 32

/-- One command word `cmd[39:0]` (R60). -/
abbrev CmdWord := BitVec 40

end Sys2Proof
end

