-- ==== Sys2Proof/Config.lean ====
section
/-! DEFINITION. The parameters of rule R6: those the spec fixes (`Param`), those it leaves open (`Config`, `HostParams`)
with the only constraints a model may assume of them (R6, R7, R43, R44), and the unknown configuration the hardware is
installed with. -/

namespace Sys2Proof

/-- `CAPACITY`: the largest number of available output samples per channel (R6, D10). -/
def Param.capacity : Nat := 65536
/-- `TIME_BITS`: fraction bits of the time accumulator (R6, D5). -/
def Param.timeBits : Nat := 32
/-- `PHASE_BITS`: bits of sub-sample phase (R6, D7). -/
def Param.phaseBits : Nat := 5
/-- `PHASES = 2^PHASE_BITS` (R6). -/
def Param.phases : Nat := 32
/-- `DELTA_BITS`: fraction bits of a kernel coefficient (R6, D7). -/
def Param.deltaBits : Nat := 15
/-- `UNIT = 2^DELTA_BITS`, the coefficient that means 1.0 (R6). -/
def Param.unit : Nat := 32768
/-- `MAX_RATIO`: the largest rate ratio in either direction (R6, D12). -/
def Param.maxRatio : Nat := 32768
/-- `FM_CHANNELS`: the FM channel indices the host may key are 0 to 5 (R6). -/
def Param.fmChannels : Nat := 6
/-- `CHANNELS_PER_BANK` (R6). -/
def Param.channelsPerBank : Nat := 3

/-- The parameters of the hardware that the spec leaves open or marks as general knowledge: the model takes them as
arguments (R6). They stand as data in `State.cfg`, which no command writes (R10, R200). -/
structure Config where
  /-- `NATIVE_RATE`: native ticks per second (D28). -/
  nativeRate : Nat
  /-- `TAPS`, written `W`: kernel taps per phase (D7). -/
  taps : Nat
  /-- `KERNEL`: one row of `W` signed coefficients for each of the 32 phases (R43). -/
  kernel : List (List Int)
  /-- `FNUM_TABLE`: the 11-bit divider of each of the 12 pitch classes, C first (R44, D18). -/
  fnumTable : List (BitVec 11)
  /-- `SLOT_FLAGS`: the four operator-slot bits of the key byte (D20). -/
  slotFlags : Byte
  /-- `HIGH_BANK_FLAG`: the high-bank bit of the key byte (D20). -/
  highBankFlag : Byte
  deriving DecidableEq, Repr

/-- `LINE_LEN = CAPACITY + W`: entries of each channel's ring (R6, R20). -/
def Config.lineLen (cfg : Config) : Nat := Param.capacity + cfg.taps

/-- A kernel row as R43 constrains it: `W` coefficients, unity gain, bounded magnitude. -/
abbrev Config.RowOk (taps : Nat) (row : List Int) : Prop :=
  row.length = taps ∧ row.sum = Param.unit ∧ (row.map Int.natAbs).sum ≤ 4 * Param.unit

/-- All a model may assume of the open parameters: R6 (`NATIVE_RATE`, `TAPS`), R43 (`KERNEL`), R44 (`FNUM_TABLE` has 12
entries; that each is below 2048 is its type). Nothing is assumed of `SLOT_FLAGS` and `HIGH_BANK_FLAG`. -/
abbrev Config.Valid (cfg : Config) : Prop :=
  (1 ≤ cfg.nativeRate ∧ cfg.nativeRate < 2 ^ 32) ∧ (1 ≤ cfg.taps ∧ cfg.taps ≤ 64) ∧
  (cfg.kernel.length = Param.phases ∧ ∀ row ∈ cfg.kernel, Config.RowOk cfg.taps row) ∧
  cfg.fnumTable.length = 12

/-- Free: the installed native rate (log entry 5). -/
opaque Config.openNativeRate : Nat
/-- Free: the installed tap count (log entry 5). -/
opaque Config.openTaps : Nat
/-- Free: the installed kernel (log entry 5). -/
opaque Config.openKernel : List (List Int)
/-- Free: the installed divider table (log entry 5). -/
opaque Config.openFnumTable : List (BitVec 11)
/-- Free: the installed slot flags (log entry 5). -/
opaque Config.openSlotFlags : Byte
/-- Free: the installed high-bank flag (log entry 5). -/
opaque Config.openHighBankFlag : Byte

/-- The unknown parameters as one configuration, not yet constrained. -/
def Config.candidate : Config where
  nativeRate := Config.openNativeRate
  taps := Config.openTaps
  kernel := Config.openKernel
  fnumTable := Config.openFnumTable
  slotFlags := Config.openSlotFlags
  highBankFlag := Config.openHighBankFlag

/-- The `LINEAR` reference kernel of 95_test_vectors.md section 2 with the example table of G3 and the flags of G4: an
instance of the constraints, used in tests and as the fallback of `Config.installed`. -/
def Config.linear (nativeRate : Nat) : Config where
  nativeRate := nativeRate
  taps := 2
  kernel := (List.range 32).map fun p => [32768 - 1024 * (p : Int), 1024 * (p : Int)]
  fnumTable := [617, 654, 693, 734, 778, 824, 873, 925, 980, 1038, 1100, 1165]
  slotFlags := 0xF0
  highBankFlag := 0x04

/-- DESIGN CHOICE (log entry 5). The configuration the hardware holds from before the first command (R200): the unknown
`candidate`, cut down to what R6, R43 and R44 let a model assume. Which configuration it is cannot be proved; that it is
valid can. -/
def Config.installed : Config :=
  if Config.candidate.Valid then Config.candidate else Config.linear 55466

/-- The register addresses and bytes the host's macros use, all open or general knowledge (R6, D21, D23): an argument of
the macros. `ADDR_KEY = 0x28` and the operator offsets are the spec's (R46). -/
structure HostParams where
  addrFbAl : Byte
  addrPanAmsPms : Byte
  addrDtMl : Byte
  addrTl : Byte
  addrKsAr : Byte
  addrAmDr : Byte
  addrSr : Byte
  addrSlRr : Byte
  addrSsgEg : Byte
  addrFnumLo : Byte
  addrFnumHi : Byte
  addrLfo : Byte
  panCenter : Byte
  /-- `MODE_WRITES`: (high bank?, address, byte), possibly empty. -/
  modeWrites : List (Bool × Byte × Byte)
  deriving DecidableEq, Repr

/-- `ADDR_KEY`, the shared key-control register (R46). -/
def Param.addrKey : Byte := 0x28
/-- `OP_OFFSET[0..3]` (R6, R46). -/
def Param.opOffset : List Byte := [0x00, 0x08, 0x04, 0x0C]

/-- PRESUMED (G4): the general-knowledge defaults of the host's parameters, used only in tests. -/
def HostParams.gk : HostParams where
  addrFbAl := 0xB0
  addrPanAmsPms := 0xB4
  addrDtMl := 0x30
  addrTl := 0x40
  addrKsAr := 0x50
  addrAmDr := 0x60
  addrSr := 0x70
  addrSlRr := 0x80
  addrSsgEg := 0x90
  addrFnumLo := 0xA0
  addrFnumHi := 0xA4
  addrLfo := 0x22
  panCenter := 0xC0
  modeWrites := []

end Sys2Proof
end

