-- ==== Sys2Proof/Syntax.lean ====
section
/-! DEFINITION. The commands: one constructor per row of spec/opcode_table.json (rule R63), operands in assembler order.
Counts and rates are numbers, samples are signed integers, codec operands are bytes that the codec masks (R64, R65). -/

namespace Sys2Proof

/-- The 21 commands of rule R63. -/
inductive Instr where
  /-- `START rate` (R80). -/
  | start (rate : Nat)
  /-- `STOP` (R81). -/
  | stop
  /-- `PUSH left, right` (R84). -/
  | push (left right : Int)
  /-- `ENDFRAME` (R86). -/
  | endframe
  /-- `NEEDED n` (R88). -/
  | needed (n : Nat)
  /-- `AVAIL` (R89). -/
  | avail
  /-- `POP count` (R91). -/
  | pop (count : Nat)
  /-- `STATUS` (R92). -/
  | status
  /-- `FB_AL fb, al` (R122). -/
  | fbAl (fb al : Byte)
  /-- `LFO_FREQ freq` (R123). -/
  | lfoFreq (freq : Byte)
  /-- `AMS_PMS ams, pms` (R124). -/
  | amsPms (ams pms : Byte)
  /-- `DT_ML dt, ml` (R125). -/
  | dtMl (dt ml : Byte)
  /-- `TL tl` (R126). -/
  | tl (tl : Byte)
  /-- `KS_AR ks, ar` (R127). -/
  | ksAr (ks ar : Byte)
  /-- `AM_DR am, dr`; `am` is the one bit `a[0]` (R128). -/
  | amDr (am : Bool) (dr : Byte)
  /-- `SR sr` (R129). -/
  | sr (sr : Byte)
  /-- `SL_RR sl, rr` (R130). -/
  | slRr (sl rr : Byte)
  /-- `SSG_EG e` (R131). -/
  | ssgEg (e : Byte)
  /-- `NOTE_FNUM octave, pitch` (R132). -/
  | noteFnum (octave pitch : Byte)
  /-- `KEY_ON ch` (R133). -/
  | keyOn (ch : Byte)
  /-- `KEY_OFF ch` (R134). -/
  | keyOff (ch : Byte)
  deriving DecidableEq, Repr

end Sys2Proof
end

