-- ==== Sys2Proof/WellFormed.lean ====
section
/-! DEFINITION. Which command terms a command word can hold (rule R64): a format U operand is an unsigned 32-bit number,
the two format S operands are signed 16-bit samples. Operand bytes need no check: their type is the field. -/

namespace Sys2Proof

/-- A format U operand, `arg[31:0]` unsigned (R64). -/
def fitsU32 (n : Nat) : Bool := decide (n < 2 ^ 32)

/-- A format S operand, a signed 16-bit sample (R64). -/
def fitsS16 (v : Int) : Bool := decide (-(2 ^ 15) ≤ v) && decide (v < 2 ^ 15)

/-- The commands whose operands fit their fields. -/
def Instr.wellFormed : Instr → Bool
  | .start rate => fitsU32 rate
  | .stop => true
  | .push left right => fitsS16 left && fitsS16 right
  | .endframe => true
  | .needed n => fitsU32 n
  | .avail => true
  | .pop count => fitsU32 count
  | .status => true
  | .fbAl _ _ => true
  | .lfoFreq _ => true
  | .amsPms _ _ => true
  | .dtMl _ _ => true
  | .tl _ => true
  | .ksAr _ _ => true
  | .amDr _ _ => true
  | .sr _ => true
  | .slRr _ _ => true
  | .ssgEg _ => true
  | .noteFnum _ _ => true
  | .keyOn _ => true
  | .keyOff _ => true

end Sys2Proof
end

