-- ==== Sys2Proof/Decode.lean ====
section
/-! DEFINITION. The decoder (rules R60, R63 to R67): total on every 40-bit word, an unknown opcode rejected by name; then
the encoder, written from the same tables, unused operand bits 0 (R69). -/

namespace Sys2Proof

/-- What a command word is: a command, or an illegal opcode (R67). -/
inductive Decoded where
  | command (i : Instr)
  /-- `op` is not in the table of R63; the port answers `ILLEGAL_OPCODE` (R67, R183). -/
  | illegalOpcode (op : Byte)
  deriving DecidableEq, Repr

/-- `op = cmd[39:32]` (R60). -/
def opField (w : CmdWord) : Byte := w.extractLsb' 32 8
/-- `arg = cmd[31:0]` (R60), the operand `n` of format U (R64). -/
def argField (w : CmdWord) : DataWord := w.extractLsb' 0 32
/-- `arg[31:16]`, the left sample of format S (R64). -/
def leftField (w : CmdWord) : BitVec 16 := w.extractLsb' 16 16
/-- `arg[15:0]`, the right sample of format S (R64). -/
def rightField (w : CmdWord) : BitVec 16 := w.extractLsb' 0 16
/-- `a = arg[15:8]` of format B (R64). -/
def aField (w : CmdWord) : Byte := w.extractLsb' 8 8
/-- `b = arg[7:0]` of format B (R64). -/
def bField (w : CmdWord) : Byte := w.extractLsb' 0 8
/-- `am = a[0] = arg[8]` of `AM_DR` (R65). -/
def amField (w : CmdWord) : Bool := w.getLsbD 8

/-- The decoder reads `op` and nothing else to know the command (R60); operand bits the format does not use are dropped
(R66); the samples of `PUSH` are sign-extended (R64). -/
def decode (w : CmdWord) : Decoded :=
  match (opField w).toNat with
  | 0x01 => .command (.start (argField w).toNat)
  | 0x02 => .command .stop
  | 0x03 => .command (.push (leftField w).toInt (rightField w).toInt)
  | 0x04 => .command .endframe
  | 0x05 => .command (.needed (argField w).toNat)
  | 0x06 => .command .avail
  | 0x07 => .command (.pop (argField w).toNat)
  | 0x08 => .command .status
  | 0x10 => .command (.fbAl (aField w) (bField w))
  | 0x11 => .command (.lfoFreq (bField w))
  | 0x12 => .command (.amsPms (aField w) (bField w))
  | 0x13 => .command (.dtMl (aField w) (bField w))
  | 0x14 => .command (.tl (bField w))
  | 0x15 => .command (.ksAr (aField w) (bField w))
  | 0x16 => .command (.amDr (amField w) (bField w))
  | 0x17 => .command (.sr (bField w))
  | 0x18 => .command (.slRr (aField w) (bField w))
  | 0x19 => .command (.ssgEg (bField w))
  | 0x1A => .command (.noteFnum (aField w) (bField w))
  | 0x1B => .command (.keyOn (bField w))
  | 0x1C => .command (.keyOff (bField w))
  | _ => .illegalOpcode (opField w)

/-- The opcode of each command (R63). -/
def Instr.opcode : Instr → Byte
  | .start _ => 0x01
  | .stop => 0x02
  | .push _ _ => 0x03
  | .endframe => 0x04
  | .needed _ => 0x05
  | .avail => 0x06
  | .pop _ => 0x07
  | .status => 0x08
  | .fbAl _ _ => 0x10
  | .lfoFreq _ => 0x11
  | .amsPms _ _ => 0x12
  | .dtMl _ _ => 0x13
  | .tl _ => 0x14
  | .ksAr _ _ => 0x15
  | .amDr _ _ => 0x16
  | .sr _ => 0x17
  | .slRr _ _ => 0x18
  | .ssgEg _ => 0x19
  | .noteFnum _ _ => 0x1A
  | .keyOn _ => 0x1B
  | .keyOff _ => 0x1C

/-- `arg` of format S: left sample in the more significant half (R47, R64). -/
def samplesArg (left right : Int) : DataWord :=
  ((BitVec.ofInt 16 left).setWidth 32 <<< 16) ||| (BitVec.ofInt 16 right).setWidth 32
/-- `arg` of format B: `arg[31:16]` zero, then `a`, then `b` (R64). -/
def bytesArg (a b : Byte) : DataWord := (a.setWidth 32 <<< 8) ||| b.setWidth 32

/-- The operand word of each command, unused bits 0 (R64, R65, R69). -/
def Instr.arg : Instr → DataWord
  | .start rate => BitVec.ofNat 32 rate
  | .stop => 0
  | .push left right => samplesArg left right
  | .endframe => 0
  | .needed n => BitVec.ofNat 32 n
  | .avail => 0
  | .pop count => BitVec.ofNat 32 count
  | .status => 0
  | .fbAl fb al => bytesArg fb al
  | .lfoFreq freq => bytesArg 0 freq
  | .amsPms ams pms => bytesArg ams pms
  | .dtMl dt ml => bytesArg dt ml
  | .tl level => bytesArg 0 level
  | .ksAr ks ar => bytesArg ks ar
  | .amDr am dr => bytesArg (if am then 1 else 0) dr
  | .sr rate => bytesArg 0 rate
  | .slRr sl rr => bytesArg sl rr
  | .ssgEg e => bytesArg 0 e
  | .noteFnum octave pitch => bytesArg octave pitch
  | .keyOn ch => bytesArg 0 ch
  | .keyOff ch => bytesArg 0 ch

/-- The command word with the given opcode and operand (R60). -/
def commandWord (op : Byte) (arg : DataWord) : CmdWord := (op.setWidth 40 <<< 32) ||| arg.setWidth 40

/-- The word of a command (R60, R63, R64). -/
def encode (i : Instr) : CmdWord := commandWord i.opcode i.arg

/-- The 40-bit word whose low `nbits` bits are those of `w`, the rest 0: a command is one word, given to the port whole, so
the table's bit numbers are the word's own (R60, log entry 7). -/
def tableWord (nbits w : Nat) : CmdWord := BitVec.ofNat 40 (w % 2 ^ nbits)

/-- The command the decoder reads from the word with bits `w`; none where it rejects the word. -/
def decodeTableWord (nbits w : Nat) : Option Instr :=
  match decode (tableWord nbits w) with
  | .command i => some i
  | .illegalOpcode _ => none

end Sys2Proof
end

