-- ==== Sys2Proof/Machine/State.lean ====
section
/-! DEFINITION. The state of the hardware (rule R10) as plain data, with the port's own fields, and power-on reset (R30,
R200). -/

namespace Sys2Proof.Machine

/-- A delta line as data: (ring index, entry) for the entries that differ from 0, ring indices strictly rising. An entry
not listed reads 0, the spec's reset value (R20, R30). Entries are whole signed integers, not bytes (R47, R48). -/
abbrev Memory := List (Nat × Int)

/-- The registers of one resampler channel (R10, R14 to R20). -/
structure Channel where
  /-- Last pushed sample (R14). -/
  prev : Int
  /-- Pushes since the frame began (R15). -/
  tick : Nat
  /-- Fraction of an output sample carried between frames, in units of `2^-TIME_BITS` (R16). -/
  offset : Nat
  /-- Output samples ready to be popped (R17). -/
  avail : Nat
  /-- Read cursor: ring index of the oldest entry not yet popped (R18). -/
  rd : Nat
  /-- Integrator: running sum of popped entries (R19). -/
  acc : Int
  /-- The delta line (R20). -/
  ring : Memory
  deriving DecidableEq, Repr

/-- One beat of the sample stream: a signed 16-bit sample for each channel (R62). -/
structure Beat where
  left : Int
  right : Int
  deriving DecidableEq, Repr

/-- The response to one command (R61) with the beats that `POP` delivers after it (R62). -/
structure Response where
  /-- `rsp_ok` (R61). -/
  ok : Bool
  /-- `rsp_data` (R61). -/
  data : DataWord
  /-- The stream beats, oldest first; none but for `POP` (R62). -/
  beats : List Beat
  deriving DecidableEq, Repr

/-- The hardware. `cfg`, `pending` and `rsp` are the model's own (log entries 1, 3, 4); the rest is R10. -/
structure State where
  /-- The open parameters (R6); never written (R10). -/
  cfg : Config
  /-- A session, that is a buffer, exists (R11). -/
  active : Bool
  /-- Output samples per native tick, times `2^TIME_BITS` (R12). -/
  factor : Nat
  /-- The sticky overflow fault `fault_ovf` (R13). -/
  faultOvf : Bool
  /-- Channel `L`. -/
  left : Channel
  /-- Channel `R`. -/
  right : Channel
  /-- Command words issued by the host and not taken yet, first issued first (R24, R71). -/
  pending : List CmdWord
  /-- The last response given; none before the first (R61). -/
  rsp : Option Response
  deriving DecidableEq, Repr

/-- Nothing stops this hardware: 'the hardware has no exceptions in the sense of an instruction set' (R180), and the
overflow fault of R182 is a bit of state and an answer. So there is no constructor (log entry 10). -/
inductive Fault where
  deriving DecidableEq, Repr

/-- Reasons for which the model has no meaning for a command. The refusals of R183 are answers of the hardware, not these. -/
inductive Refusal where
  /-- Raised only by an arm of `exec` whose command has no meaning yet; safe. No arm does so now. -/
  | notModelled (mnemonic : String)
  deriving DecidableEq, Repr

/-- A channel right after power-on reset, and after `START` and `STOP` (R30, R201). -/
def Channel.reset : Channel where
  prev := 0
  tick := 0
  offset := 0
  avail := 0
  rd := 0
  acc := 0
  ring := []

/-- The machine right after power-on reset: every register and ring entry 0 (R30, R200), the configured parameters in
place, no command issued and none answered. -/
def State.reset : State where
  cfg := Config.installed
  active := false
  factor := 0
  faultOvf := false
  left := Channel.reset
  right := Channel.reset
  pending := []
  rsp := none

end Sys2Proof.Machine
end

