-- ==== Sys2Proof/Machine/Arith.lean ====
section
/-! DEFINITION. The arithmetic of rule R8 that `Nat` and `Int` do not have under one name: the upward division and the
clamp, and the scaling of an integrator value to an output sample. -/

namespace Sys2Proof.Machine

/-- `ceil_div(a, b) = (a + b - 1) div b` (R8). -/
def ceilDiv (a b : Nat) : Nat := (a + b - 1) / b

/-- `sat_16(v)`: the clamp to `[-2^15, 2^15 - 1]` (R8). -/
def sat16 (v : Int) : Int := max (-(2 ^ 15)) (min v (2 ^ 15 - 1))

/-- The output sample of an integrator value, `sat_16(acc >>a DELTA_BITS)`: floor, then clamp (R90). -/
def outputSample (acc : Int) : Int := sat16 (acc >>> Param.deltaBits)

end Sys2Proof.Machine
end

