-- ==== Sys2Proof/Machine/Operands.lean ====
section
/-! DEFINITION. Operand forms. Of the resampler unit: the time accumulator's position with its whole part and phase (rules
R83, R85, R97), the logical line index (R41, R101), the coefficient ROM (R43). Of the codec unit: the masked operand fields
and the bytes packed from them (R120, R136), the divider ROM (R44), the channel bits of a key byte (R133). -/

namespace Sys2Proof.Machine

/-- `pos = c.tick * factor + c.offset`, in units of `2^-TIME_BITS` output samples (R83, R85). -/
def Channel.position (factor : Nat) (c : Channel) : Nat := c.tick * factor + c.offset

/-- `pos >> TIME_BITS`: whole output samples (R83, R85). -/
def wholeSamples (pos : Nat) : Nat := pos / 2 ^ Param.timeBits

/-- `pos & (2^TIME_BITS - 1)`: the fraction `ENDFRAME` carries (R85). -/
def fractionOf (pos : Nat) : Nat := pos % 2 ^ Param.timeBits

/-- `(pos >> (TIME_BITS - PHASE_BITS)) & (PHASES - 1)`: the top phase bits of the fraction, truncated (R83). -/
def phaseOf (pos : Nat) : Nat := pos / 2 ^ (Param.timeBits - Param.phaseBits) % Param.phases

/-- The logical line index at which a delta pushed now begins, `c.avail + i` (R83, R101). -/
def Channel.pushIndex (factor : Nat) (c : Channel) : Nat := c.avail + wholeSamples (c.position factor)

/-- The ring index of logical line index `x`: `(c.rd + x) mod LINE_LEN` (R9, R41). -/
def Channel.ringIndex (len : Nat) (c : Channel) (x : Nat) : Nat := (c.rd + x) % len

/-- The write cursor, not a register: the ring index of logical index `c.avail` (R21). -/
def Channel.wr (len : Nat) (c : Channel) : Nat := c.ringIndex len c.avail

/-- `KERNEL[p][j]` (R43). -/
def kernelAt (cfg : Config) (p j : Nat) : Int := (cfg.kernel.getD p []).getD j 0

/-- The `W` coefficients of row `p`, tap 0 first (R83). -/
def kernelRow (cfg : Config) (p : Nat) : List Int := (List.range cfg.taps).map (kernelAt cfg p)

/-- `FNUM_TABLE[k]` (R44). -/
def fnumAt (cfg : Config) (k : Nat) : BitVec 11 := cfg.fnumTable.getD k 0

/-- An operand cut to its field by the field's mask (R120, R136). -/
def field (mask v : Byte) : Byte := v &&& mask

/-- `((a & maskA) << shift) | (b & maskB)`, the byte of a two-field packer (R120). -/
def packTwo (maskA : Byte) (shift : Nat) (maskB a b : Byte) : Byte := (field maskA a <<< shift) ||| field maskB b

/-- A byte in `rsp_data[7:0]`, the other bits 0 (R61, R63). -/
def byteWord (b : Byte) : DataWord := b.setWidth 32

/-- A bit as an operand byte, `am` of `AM_DR` (R65). -/
def bitByte (b : Bool) : Byte := if b then 1 else 0

/-- `k = pitch & 0xF`, the pitch class index (R132). -/
def pitchIndex (pitch : Byte) : Nat := (field 0xF pitch).toNat

/-- `low = f & 0xFF` (R132). -/
def fnumLow (f : BitVec 11) : Byte := f.extractLsb' 0 8

/-- The high/block byte: `((octave & 0x7) << 3) | ((f >> 8) & 0x7)` (R132). -/
def fnumHigh (octave : Byte) (f : BitVec 11) : Byte := (field 0x7 octave <<< 3) ||| (f.extractLsb' 8 3).setWidth 8

/-- `(high << 8) | low` as `rsp_data` (R47, R132). -/
def fnumWord (octave : Byte) (f : BitVec 11) : DataWord := (byteWord (fnumHigh octave f) <<< 8) ||| byteWord (fnumLow f)

/-- `chbits`: the channel number in the low bank, the high-bank flag and the number less 3 in the high bank (R133). -/
def chBits (cfg : Config) (ch : Byte) : Byte :=
  if ch.toNat < Param.channelsPerBank then ch else cfg.highBankFlag ||| (ch - 3)

end Sys2Proof.Machine
end

