-- ==== Sys2Proof/Machine/Flags.lean ====
section
/-! DEFINITION. What plays the part of flags (rule R25): the overflow tests that set `fault_ovf` (R83, R85, R182), the
boolean answers of `START` and `STOP`, the `STATUS` word (R27, R92), the `skip` bit (R133, R134), the reason codes (R183). -/

namespace Sys2Proof.Machine

/-- `ovf(c)` of a push: its first tap would lie beyond line index `CAPACITY` (R83). -/
def Channel.pushOverflows (factor : Nat) (c : Channel) : Bool := decide (Param.capacity < c.pushIndex factor)

/-- `added`: the whole output samples the current frame makes (R85). -/
def Channel.added (factor : Nat) (c : Channel) : Nat := wholeSamples (c.position factor)

/-- `ovf(c)` of the end of a frame: more than `CAPACITY` samples would be available (R85). -/
def Channel.frameOverflows (factor : Nat) (c : Channel) : Bool := decide (Param.capacity < c.avail + c.added factor)

/-- `START`'s test of its operand: the rate is 0 or the ratio lies outside `MAX_RATIO` either way (R80). -/
def rateUnusable (nativeRate rate : Nat) : Bool :=
  decide (rate = 0) || decide (nativeRate * Param.maxRatio < rate) || decide (rate * Param.maxRatio < nativeRate)

/-- A boolean answer in `rsp_data[0]` (R25, R80, R81). -/
def boolWord (b : Bool) : DataWord := if b then 1 else 0

/-- The `STATUS` word: bit 0 `active`, bit 1 `fault_ovf`, the rest 0 (R27, R92). -/
def statusWord (active faultOvf : Bool) : DataWord := (boolWord faultOvf <<< 1) ||| boolWord active

/-- The answer `0x100`: `skip = rsp_data[8]` set, no byte (R133, R134). -/
def skipWord : DataWord := 0x100

/-- `KEY_ON` and `KEY_OFF` skip FM channels outside 0 to 5 (R133, R134). -/
def skipsChannel (ch : Byte) : Bool := decide (Param.fmChannels ≤ ch.toNat)

/-- The reasons for which a command answers `rsp_ok = 0` (R183). -/
inductive Reason where
  | illegalOpcode
  | badOperand
  | faulted
  | overflow
  deriving DecidableEq, Repr

/-- The reason codes in `rsp_data[7:0]` (R61, R183). -/
def reasonCode : Reason → DataWord
  | .illegalOpcode => 1
  | .badOperand => 2
  | .faulted => 3
  | .overflow => 4

end Sys2Proof.Machine
end

