-- ==== Sys2Proof/Machine/Ops.lean ====
section
/-! DEFINITION. The named operations: the memory of a delta line (rules R9, R20, R41), the port (R61, R71), the outcomes of
a command (R9, R182, R183), the pre-check (R82), and the per-channel functions of the resampler (R83, R85, R87, R90). -/

namespace Sys2Proof.Machine

/-! ### The delta line -/

/-- The entry at a ring index; an entry not listed is 0 (R30). -/
def Memory.read : Memory → Nat → Int
  | [], _ => 0
  | (a, v) :: rest, x => if x = a then v else Memory.read rest x

/-- Write one whole entry (R49), keeping the list in its canonical form: writing 0 removes the entry. -/
def Memory.write : Memory → Nat → Int → Memory
  | [], x, v => if v = 0 then [] else [(x, v)]
  | (a, u) :: rest, x, v =>
    if x < a then (if v = 0 then (a, u) :: rest else (x, v) :: (a, u) :: rest)
    else if x = a then (if v = 0 then rest else (x, v) :: rest)
    else (a, u) :: Memory.write rest x v

/-- The canonical form: ring indices strictly rising, no entry listed that reads 0 anyway. -/
def Memory.wf : Memory → Bool
  | [] => true
  | (a, v) :: rest => decide (v ≠ 0) && rest.all (fun cell => decide (a < cell.1)) && Memory.wf rest

/-- `LineRead(c, x)` (R9, R41). -/
def Channel.lineRead (len : Nat) (c : Channel) (x : Nat) : Int := Memory.read c.ring (c.ringIndex len x)

/-- `LineWrite(c, x, v)` (R9, R41). -/
def Channel.lineWrite (len : Nat) (c : Channel) (x : Nat) (v : Int) : Channel :=
  { c with ring := Memory.write c.ring (c.ringIndex len x) v }

/-! ### The port and the outcomes of a command -/

/-- `return (ok, data)` with the beats of `POP` (R9, R61, R62). -/
def State.respond (ok : Bool) (data : DataWord) (beats : List Beat) (s : State) : State :=
  { s with rsp := some ⟨ok, data, beats⟩ }

/-- The normal answer of a command without beats, `return (1, data)` (R9). -/
def State.done (data : DataWord) (s : State) : State := s.respond true data []

/-- `refuse <reason>`: no state changes, the answer is `(0, code)` (R183, R187). -/
def State.refuse (reason : Reason) (s : State) : State := s.respond false (reasonCode reason) []

/-- `fault OVF`, the one entry into a failed state: `fault_ovf <- 1`, nothing else changes, the answer is `(0, 4)` (R182,
R187). -/
def State.overflowFault (s : State) : State := { s with faultOvf := true }.respond false (reasonCode .overflow) []

/-- Every register and ring entry of R10 to its reset value: the effect of `STOP`, and the only way out of the faulted
state (R81, R188, R201). -/
def State.powerOn (s : State) : State :=
  { s with active := false, factor := 0, faultOvf := false, left := Channel.reset, right := Channel.reset }

/-- The construction of the buffer by `START` (R80, R201). -/
def State.construct (factor : Nat) (s : State) : State := { s.powerOn with active := true, factor := factor }

/-- Both channels written together (R9, R99). -/
def State.setChannels (left right : Channel) (s : State) : State := { s with left := left, right := right }

/-- The pre-check of the five data commands: with no session a no-op answering `(1, 0)`, in the faulted state a refusal,
else the command goes on to `normal` (R82, R184, R186). -/
def State.preCheck (s normal : State) : State :=
  if s.active then (if s.faultOvf then s.refuse .faulted else normal) else s.done 0

/-- The host issues a command word as the next to be taken (R50, R71). -/
def State.issue (w : CmdWord) (s : State) : State := { s with pending := w :: s.pending }

/-- The port takes the next command word, if one has been issued (R71). -/
def State.takeCommand (s : State) : Option (CmdWord × State) :=
  match s.pending with
  | [] => none
  | w :: rest => some (w, { s with pending := rest })

/-- With no command issued nothing happens (R24, R71, log entry 2). -/
def State.await (s : State) : State := s

/-- An illegal command changes no state and is answered `ILLEGAL_OPCODE` (R67). -/
def State.rejectOpcode (s : State) : State := s.refuse .illegalOpcode

/-! ### The resampler's per-channel functions -/

/-- The tap loop of `ch_push`: add `k * d` to successive entries from logical index `x` on (R83). -/
def Channel.addTaps (len : Nat) (d : Int) : Nat → List Int → Channel → Channel
  | _, [], c => c
  | x, k :: ks, c => Channel.addTaps len d (x + 1) ks (c.lineWrite len x (c.lineRead len x + k * d))

/-- `ch_push(c, s)` when no channel overflows (R83). -/
def Channel.push (cfg : Config) (factor : Nat) (sample : Int) (c : Channel) : Channel :=
  { Channel.addTaps cfg.lineLen (sample - c.prev) (c.pushIndex factor) (kernelRow cfg (phaseOf (c.position factor))) c with
    prev := sample, tick := c.tick + 1 }

/-- `ch_end(c)` when no channel overflows (R85). -/
def Channel.endFrame (factor : Nat) (c : Channel) : Channel :=
  { c with avail := c.avail + c.added factor, offset := fractionOf (c.position factor), tick := 0 }

/-- `ch_needed(c, n)` (R87). -/
def Channel.needed (factor : Nat) (n : Nat) (c : Channel) : Nat :=
  if n = 0 then 0 else ceilDiv (n * 2 ^ Param.timeBits - c.offset) factor

/-- The loop of `ch_pop` from logical index `m` on, `k` entries: integrate, clear, output (R90). -/
def Channel.drain (len : Nat) : Nat → Nat → Channel → List Int × Channel
  | 0, _, c => ([], c)
  | k + 1, m, c =>
    let acc := c.acc + c.lineRead len m
    let rest := Channel.drain len k (m + 1) ({ c with acc := acc }.lineWrite len m 0)
    (outputSample acc :: rest.1, rest.2)

/-- `k = min(count, c.avail)` (R90). -/
def Channel.popCount (count : Nat) (c : Channel) : Nat := min count c.avail

/-- `ch_pop(c, count)`: the samples drained, oldest first, and the channel after (R90). -/
def Channel.pop (len count : Nat) (c : Channel) : List Int × Channel :=
  let k := c.popCount count
  let r := Channel.drain len k 0 c
  (r.1, { r.2 with rd := (c.rd + k) % len, avail := c.avail - k })

end Sys2Proof.Machine
end

