-- ==== Sys2Proof/Machine/Codec.lean ====
section
/-! DEFINITION. The ten packers of the codec unit (rules R120, R122 to R131): mask, shift, OR; `rsp_ok` is always 1 and no
state changes. -/

namespace Sys2Proof.Machine

/-- `FB_AL fb, al` (R122). -/
def execFbAl (fb al : Byte) (s : State) : Host.Outcome State Fault Refusal :=
  .next (s.done (byteWord (packTwo 0x7 3 0x7 fb al)))

/-- `LFO_FREQ freq` (R123). -/
def execLfoFreq (freq : Byte) (s : State) : Host.Outcome State Fault Refusal :=
  .next (s.done (byteWord (field 0xF freq)))

/-- `AMS_PMS ams, pms` (R124). -/
def execAmsPms (ams pms : Byte) (s : State) : Host.Outcome State Fault Refusal :=
  .next (s.done (byteWord (packTwo 0x3 4 0x7 ams pms)))

/-- `DT_ML dt, ml` (R125). -/
def execDtMl (dt ml : Byte) (s : State) : Host.Outcome State Fault Refusal :=
  .next (s.done (byteWord (packTwo 0x7 4 0xF dt ml)))

/-- `TL tl` (R126). -/
def execTl (tl : Byte) (s : State) : Host.Outcome State Fault Refusal :=
  .next (s.done (byteWord (field 0x3F tl)))

/-- `KS_AR ks, ar` (R127). -/
def execKsAr (ks ar : Byte) (s : State) : Host.Outcome State Fault Refusal :=
  .next (s.done (byteWord (packTwo 0x3 6 0x1F ks ar)))

/-- `AM_DR am, dr` (R128). -/
def execAmDr (am : Bool) (dr : Byte) (s : State) : Host.Outcome State Fault Refusal :=
  .next (s.done (byteWord (packTwo 0x1 7 0x1F (bitByte am) dr)))

/-- `SR sr` (R129). -/
def execSr (sr : Byte) (s : State) : Host.Outcome State Fault Refusal :=
  .next (s.done (byteWord (field 0x1F sr)))

/-- `SL_RR sl, rr` (R130). -/
def execSlRr (sl rr : Byte) (s : State) : Host.Outcome State Fault Refusal :=
  .next (s.done (byteWord (packTwo 0xF 4 0xF sl rr)))

/-- `SSG_EG e` (R131). -/
def execSsgEg (e : Byte) (s : State) : Host.Outcome State Fault Refusal :=
  .next (s.done (byteWord (field 0xF e)))

end Sys2Proof.Machine
end

