-- ==== Sys2Proof/Machine/Lifecycle.lean ====
section
/-! DEFINITION. The commands that act on the unit as a whole (rule R102): `START`, `STOP`, `STATUS`. -/

namespace Sys2Proof.Machine

/-- `START rate` (R80): false when already Active, refused when the rate is unusable, else the buffer is constructed with
`factor = ceil_div(rate * 2^TIME_BITS, NATIVE_RATE)` (R12). -/
def execStart (rate : Nat) (s : State) : Host.Outcome State Fault Refusal :=
  .next <|
    if s.active then s.done (boolWord false)
    else if rateUnusable s.cfg.nativeRate rate then s.refuse .badOperand
    else (s.construct (ceilDiv (rate * 2 ^ Param.timeBits) s.cfg.nativeRate)).done (boolWord true)

/-- `STOP` (R81): false when not Active, else everything back to the power-on values. -/
def execStop (s : State) : Host.Outcome State Fault Refusal :=
  .next <| if s.active then s.powerOn.done (boolWord true) else s.done (boolWord false)

/-- `STATUS` (R92): accepted in every state, changes nothing. -/
def execStatus (s : State) : Host.Outcome State Fault Refusal :=
  .next (s.done (statusWord s.active s.faultOvf))

end Sys2Proof.Machine
end

