-- ==== Sys2Proof/Machine/Notes.lean ====
section
/-! DEFINITION. The codec's note commands: `NOTE_FNUM`, `KEY_ON`, `KEY_OFF` (rules R132 to R134). -/

namespace Sys2Proof.Machine

/-- `NOTE_FNUM octave, pitch` (R132): refused for a pitch index above 11. -/
def execNoteFnum (octave pitch : Byte) (s : State) : Host.Outcome State Fault Refusal :=
  .next <|
    if 11 < pitchIndex pitch then s.refuse .badOperand
    else s.done (fnumWord octave (fnumAt s.cfg (pitchIndex pitch)))

/-- `KEY_ON ch` (R133). -/
def execKeyOn (ch : Byte) (s : State) : Host.Outcome State Fault Refusal :=
  .next <|
    if skipsChannel ch then s.done skipWord
    else s.done (byteWord (s.cfg.slotFlags ||| chBits s.cfg ch))

/-- `KEY_OFF ch` (R134), the AND form (C5). -/
def execKeyOff (ch : Byte) (s : State) : Host.Outcome State Fault Refusal :=
  .next <|
    if skipsChannel ch then s.done skipWord
    else s.done (byteWord (~~~s.cfg.slotFlags &&& chBits s.cfg ch))

end Sys2Proof.Machine
end

