-- ==== Sys2Proof/Machine/Resampler.lean ====
section
/-! DEFINITION. The data commands of the resampler unit: `PUSH`, `ENDFRAME`, `NEEDED`, `AVAIL`, `POP`, each behind the
pre-check of rule R82 and always on both channels (R99). -/

namespace Sys2Proof.Machine

/-- `PUSH left, right` (R84). -/
def execPush (left right : Int) (s : State) : Host.Outcome State Fault Refusal :=
  .next <| s.preCheck <|
    if s.left.pushOverflows s.factor || s.right.pushOverflows s.factor then s.overflowFault
    else (s.setChannels (s.left.push s.cfg s.factor left) (s.right.push s.cfg s.factor right)).done 0

/-- `ENDFRAME` (R86); the answer is `min(added_L, added_R)`. -/
def execEndframe (s : State) : Host.Outcome State Fault Refusal :=
  .next <| s.preCheck <|
    if s.left.frameOverflows s.factor || s.right.frameOverflows s.factor then s.overflowFault
    else (s.setChannels (s.left.endFrame s.factor) (s.right.endFrame s.factor)).done
      (BitVec.ofNat 32 (min (s.left.added s.factor) (s.right.added s.factor)))

/-- `NEEDED n` (R88): refused for a count no frame can deliver, else the larger of the two channels' frame sizes. -/
def execNeeded (n : Nat) (s : State) : Host.Outcome State Fault Refusal :=
  .next <| s.preCheck <|
    if Param.capacity < n then s.refuse .badOperand
    else s.done (BitVec.ofNat 32 (max (s.left.needed s.factor n) (s.right.needed s.factor n)))

/-- `AVAIL` (R89). -/
def execAvail (s : State) : Host.Outcome State Fault Refusal :=
  .next <| s.preCheck <| s.done (BitVec.ofNat 32 (min s.left.avail s.right.avail))

/-- `POP count` (R91): both channels drained, the smaller count answered, then that many beats (R62). -/
def execPop (count : Nat) (s : State) : Host.Outcome State Fault Refusal :=
  .next <| s.preCheck <|
    let l := s.left.pop s.cfg.lineLen count
    let r := s.right.pop s.cfg.lineLen count
    (s.setChannels l.2 r.2).respond true (BitVec.ofNat 32 (min (s.left.popCount count) (s.right.popCount count)))
      (List.zipWith Beat.mk l.1 r.1)

end Sys2Proof.Machine
end

