-- ==== Sys2Proof/Machine/Dispatch.lean ====
section
/-! DEFINITION. The commands' dispatch: one arm per constructor of `Instr` (rule R63). -/

namespace Sys2Proof.Machine

def exec (i : Instr) (s : State) : Host.Outcome State Fault Refusal :=
  match i with
  | .start rate => Sys2Proof.Machine.execStart rate s
  | .stop => Sys2Proof.Machine.execStop s
  | .push left right => Sys2Proof.Machine.execPush left right s
  | .endframe => Sys2Proof.Machine.execEndframe s
  | .needed n => Sys2Proof.Machine.execNeeded n s
  | .avail => Sys2Proof.Machine.execAvail s
  | .pop count => Sys2Proof.Machine.execPop count s
  | .status => Sys2Proof.Machine.execStatus s
  | .fbAl fb al => Sys2Proof.Machine.execFbAl fb al s
  | .lfoFreq freq => Sys2Proof.Machine.execLfoFreq freq s
  | .amsPms ams pms => Sys2Proof.Machine.execAmsPms ams pms s
  | .dtMl dt ml => Sys2Proof.Machine.execDtMl dt ml s
  | .tl level => Sys2Proof.Machine.execTl level s
  | .ksAr ks ar => Sys2Proof.Machine.execKsAr ks ar s
  | .amDr am dr => Sys2Proof.Machine.execAmDr am dr s
  | .sr rate => Sys2Proof.Machine.execSr rate s
  | .slRr sl rr => Sys2Proof.Machine.execSlRr sl rr s
  | .ssgEg e => Sys2Proof.Machine.execSsgEg e s
  | .noteFnum octave pitch => Sys2Proof.Machine.execNoteFnum octave pitch s
  | .keyOn ch => Sys2Proof.Machine.execKeyOn ch s
  | .keyOff ch => Sys2Proof.Machine.execKeyOff ch s

end Sys2Proof.Machine
end

