-- ==== Sys2Proof/Machine/Step.lean ====
section
/-! DEFINITION. One step of the hardware: take the next command word from the port, decode it, carry it out whole and answer
it (rules R50, R71). -/

namespace Sys2Proof.Machine

/-- One command, or nothing when none has been issued (R71). -/
def step (s : State) : Host.Outcome State Fault Refusal :=
  match s.takeCommand with
  | none => .next s.await
  | some (w, s') =>
    match decode w with
    | .command i => exec i s'
    | .illegalOpcode _ => .next s'.rejectOpcode

/-- The host issues the word with bits `w` as the next command (log entry 1). -/
def State.withFetchWord (s : State) (nbits w : Nat) : State := s.issue (tableWord nbits w)

end Sys2Proof.Machine
end

