-- ==== Sys2Proof/Machine/Assembler.lean ====
section
/-! DEFINITION. The assembler syntax of rule R69: one command per line, the mnemonic in capitals, its operands separated by
commas, decimal or `0x` hexadecimal numbers, `;` to the end of the line a comment, unused operand bits 0. Text is a list of
characters. What R69 does not say is in log entry 15. -/

namespace Sys2Proof.Machine

/-- How the operands of a mnemonic fill `arg` (R63, R64). -/
inductive OperandShape where
  /-- Format Z: none. -/
  | none
  /-- Format U: `n = arg[31:0]`. -/
  | word
  /-- Format S: `left`, `right`. -/
  | samples
  /-- Format B: `a`, `b`. -/
  | twoBytes
  /-- Format B: `b` alone. -/
  | oneByte
  deriving DecidableEq, Repr

/-- A row of the opcode map as the assembler uses it. -/
structure AsmRow where
  mnemonic : String
  op : Byte
  shape : OperandShape
  deriving DecidableEq, Repr

/-- The opcode map (R63). -/
def asmRows : List AsmRow :=
  [⟨"START", 0x01, .word⟩, ⟨"STOP", 0x02, .none⟩, ⟨"PUSH", 0x03, .samples⟩, ⟨"ENDFRAME", 0x04, .none⟩,
   ⟨"NEEDED", 0x05, .word⟩, ⟨"AVAIL", 0x06, .none⟩, ⟨"POP", 0x07, .word⟩, ⟨"STATUS", 0x08, .none⟩] ++
  [⟨"FB_AL", 0x10, .twoBytes⟩, ⟨"LFO_FREQ", 0x11, .oneByte⟩, ⟨"AMS_PMS", 0x12, .twoBytes⟩, ⟨"DT_ML", 0x13, .twoBytes⟩,
   ⟨"TL", 0x14, .oneByte⟩, ⟨"KS_AR", 0x15, .twoBytes⟩, ⟨"AM_DR", 0x16, .twoBytes⟩, ⟨"SR", 0x17, .oneByte⟩,
   ⟨"SL_RR", 0x18, .twoBytes⟩, ⟨"SSG_EG", 0x19, .oneByte⟩, ⟨"NOTE_FNUM", 0x1A, .twoBytes⟩, ⟨"KEY_ON", 0x1B, .oneByte⟩,
   ⟨"KEY_OFF", 0x1C, .oneByte⟩]

/-- A line of text is blank, a command word, or not assembler text. -/
inductive AsmLine where
  | blank
  | word (w : CmdWord)
  | malformed
  deriving DecidableEq, Repr

/-- Drop a comment: `;` to the end of the line. -/
def stripComment (line : List Char) : List Char := line.takeWhile (· ≠ ';')

/-- White space within a line. -/
def isBlank (ch : Char) : Bool := ch == ' ' || ch == '\t'

/-- Drop white space at both ends. -/
def trimBlanks (text : List Char) : List Char := ((text.dropWhile isBlank).reverse.dropWhile isBlank).reverse

/-- Split at commas. -/
def splitCommas : List Char → List (List Char)
  | [] => [[]]
  | ch :: rest =>
    match splitCommas rest with
    | [] => [[ch]]
    | first :: others => if ch = ',' then [] :: first :: others else (ch :: first) :: others

/-- The value of a decimal or hexadecimal digit. -/
def digitValue (base : Nat) (ch : Char) : Option Nat :=
  let n := ch.toNat
  let v := if 48 ≤ n ∧ n ≤ 57 then some (n - 48)
    else if 65 ≤ n ∧ n ≤ 70 then some (n - 55)
    else if 97 ≤ n ∧ n ≤ 102 then some (n - 87)
    else none
  v.bind fun d => if d < base then some d else none

/-- Read digits, most significant first, onto a value read so far. -/
def digitsValue (base : Nat) : List Char → Nat → Option Nat
  | [], acc => some acc
  | ch :: rest, acc => (digitValue base ch).bind fun d => digitsValue base rest (acc * base + d)

/-- An unsigned number: hexadecimal with `0x`, else decimal; at least one digit. -/
def parseNat : List Char → Option Nat
  | [] => none
  | '0' :: 'x' :: ch :: rest => digitsValue 16 (ch :: rest) 0
  | ch :: rest => digitsValue 10 (ch :: rest) 0

/-- An operand of `PUSH`: a number, or a decimal number after a `-`. -/
def parseSample : List Char → Option Int
  | '-' :: ch :: rest => (digitsValue 10 (ch :: rest) 0).map fun n => -(n : Int)
  | text => (parseNat text).map fun n => (n : Int)

/-- A number below a bound. -/
def parseBelow (bound : Nat) (text : List Char) : Option Nat :=
  (parseNat text).bind fun n => if n < bound then some n else none

/-- A sample that fits 16 bits. -/
def parseSample16 (text : List Char) : Option Int :=
  (parseSample text).bind fun v => if fitsS16 v then some v else none

/-- A byte operand. -/
def parseByte (text : List Char) : Option Byte := (parseBelow 256 text).map (BitVec.ofNat 8)

/-- `arg` from the operand texts of a mnemonic's shape (R64). -/
def assembleArg : OperandShape → List (List Char) → Option DataWord
  | .none, [] => some 0
  | .word, [n] => (parseBelow (2 ^ 32) n).map (BitVec.ofNat 32)
  | .samples, [l, r] => (parseSample16 l).bind fun x => (parseSample16 r).map fun y => samplesArg x y
  | .twoBytes, [a, b] => (parseByte a).bind fun x => (parseByte b).map fun y => bytesArg x y
  | .oneByte, [b] => (parseByte b).map fun y => bytesArg 0 y
  | _, _ => none

/-- The operand texts after a mnemonic: none, or the parts between commas. -/
def operandTexts (text : List Char) : List (List Char) :=
  match trimBlanks text with
  | [] => []
  | ch :: rest => (splitCommas (ch :: rest)).map trimBlanks

/-- Assemble one line (R69). -/
def assembleLine (line : List Char) : AsmLine :=
  match trimBlanks (stripComment line) with
  | [] => .blank
  | ch :: rest =>
    let text := ch :: rest
    let name := text.takeWhile (!isBlank ·)
    match asmRows.find? (fun row => row.mnemonic.toList == name) with
    | none => .malformed
    | some row =>
      match assembleArg row.shape (operandTexts (text.dropWhile (!isBlank ·))) with
      | none => .malformed
      | some arg => .word (commandWord row.op arg)

/-- Assemble a program, top to bottom; none if a line is not assembler text (R69). -/
def assemble : List (List Char) → Option (List CmdWord)
  | [] => some []
  | line :: rest =>
    match assembleLine line with
    | .blank => assemble rest
    | .word w => (assemble rest).map (w :: ·)
    | .malformed => none

end Sys2Proof.Machine
end

