-- ==== Sys2Proof/Machine/Program.lean ====
section
/-! DEFINITION. Programs for this hardware: finite lists of commands carried out in order; the run ends when the list is
exhausted (rules R24, R69, R160). -/

namespace Sys2Proof.Machine

/-- Carry out a list of commands one after another, each to completion (R50). -/
def runCommands : List Instr → State → Host.Outcome State Fault Refusal
  | [], s => .next s
  | i :: rest, s =>
    match exec i s with
    | .next t => runCommands rest t
    | .fault r => .fault r
    | .refused r => .refused r

/-- The `PUSH` commands of a list of (left, right) samples, first sample first. -/
def pushes (samples : List (Int × Int)) : List Instr := samples.map fun p => .push p.1 p.2

end Sys2Proof.Machine
end

