-- ==== Sys2Proof/Machine/Session.lean ====
section
/-! DEFINITION. The host's session above the hardware (42_host_sequences.md): the six macros of rule R70 as sequences of
commands on the port (`issue`) and operations on the chip engine (R150). The engine is outside (R5a): its state is not
modelled, the operations asked of it are recorded in order, and what it answers is a free input (U15, U16). -/

namespace Sys2Proof.Machine

/-- The chip engine's two register banks (R40, R45, R150). -/
inductive Bank where
  | low
  | high
  deriving DecidableEq, Repr

/-- What the host asks of the chip engine (R150). -/
inductive EngineOp where
  | create
  | destroy
  | reset
  | write (bank : Bank) (addr byte : Byte)
  | generate (nativeTicks : Nat)
  deriving DecidableEq, Repr

/-- The host's session (R151): the hardware, whether the chip engine exists, and the engine operations so far, oldest
first. -/
structure Session where
  hw : State
  engineUp : Bool
  log : List EngineOp
  deriving DecidableEq, Repr

/-- A macro's result: the session after it and the value it returns. -/
abbrev MacroResult (α : Type) := Host.Outcome (Session × α) Fault Refusal

/-- The twelve semitone names in the index order of R44. -/
inductive PitchClass where
  | c | cSharp | d | dSharp | e | f | fSharp | g | gSharp | a | aSharp | b
  deriving DecidableEq, Repr

/-- The index of a pitch class (R44, D18). -/
def PitchClass.index : PitchClass → Byte
  | .c => 0
  | .cSharp => 1
  | .d => 2
  | .dSharp => 3
  | .e => 4
  | .f => 5
  | .fSharp => 6
  | .g => 7
  | .gSharp => 8
  | .a => 9
  | .aSharp => 10
  | .b => 11

/-- One of the four operators of a tone (00_scope.md glossary, R136). -/
structure FmOperator where
  ar : Byte
  dr : Byte
  sr : Byte
  rr : Byte
  sl : Byte
  tl : Byte
  ks : Byte
  ml : Byte
  dt : Byte
  am : Bool
  ssgEg : Byte
  deriving DecidableEq, Repr

/-- A tone (00_scope.md glossary, R136). -/
structure FmTone where
  al : Byte
  fb : Byte
  op0 : FmOperator
  op1 : FmOperator
  op2 : FmOperator
  op3 : FmOperator
  lfoFreq : Byte
  ams : Byte
  pms : Byte
  deriving DecidableEq, Repr

/-- The four operators, operator 0 first. -/
def FmTone.operators (tone : FmTone) : List FmOperator := [tone.op0, tone.op1, tone.op2, tone.op3]

/-- End a macro with a value. -/
def Session.return {α : Type} (v : α) (h : Session) : MacroResult α := .next (h, v)

/-- Issue one command and go on with its response (R159: the host waits for each response).
DESIGN CHOICE (log entry 17): an operand that does not fit its field, such as a rate or a count of `2^32` or more, is cut to the
field's low bits by `encode`; the spec gives a macro's argument no width. -/
def Session.issue {α : Type} (i : Instr) (h : Session) (k : Response → Session → MacroResult α) : MacroResult α :=
  match step (h.hw.issue (encode i)) with
  | .next s => k (s.rsp.getD ⟨false, 0, []⟩) { h with hw := s }
  | .fault r => .fault r
  | .refused r => .refused r

/-- An engine operation, recorded. -/
def Session.engine (op : EngineOp) (h : Session) : Session := { h with log := h.log ++ [op] }

/-- `engine.create()`: false if already created; otherwise whether it succeeds is a free input (R150, U16). -/
def Session.engineCreate (succeeds : Bool) (h : Session) : Bool × Session :=
  let ok := !h.engineUp && succeeds
  (ok, { h with engineUp := h.engineUp || ok }.engine .create)

/-- `engine.destroy()`: false if not created; otherwise whether it succeeds is a free input (R150, U16). DESIGN CHOICE (log
entry 18): one that answers false on an existing engine leaves the engine in existence, also where `active` is or becomes 0. -/
def Session.engineDestroy (succeeds : Bool) (h : Session) : Bool × Session :=
  let ok := h.engineUp && succeeds
  (ok, { h with engineUp := h.engineUp && !ok }.engine .destroy)

/-- `EngineWrite(bank, addr, byte)` (R150). -/
def Session.engineWrite (bank : Bank) (addr byte : Byte) (h : Session) : Session := h.engine (.write bank addr byte)

/-- `W2(addr, v)`: the same write to both banks, LOW first (R154). -/
def Session.writeBoth (addr byte : Byte) (h : Session) : Session :=
  (h.engineWrite .low addr byte).engineWrite .high addr byte

/-- `rsp_data[0]`. -/
def Response.flag (r : Response) : Bool := r.data.getLsbD 0

/-- `rsp_data[7:0]`. -/
def Response.byte (r : Response) : Byte := r.data.extractLsb' 0 8

/-- `rsp_data[15:8]`. -/
def Response.highByte (r : Response) : Byte := r.data.extractLsb' 8 8

/-- `skip = rsp_data[8]` (R25). -/
def Response.skip (r : Response) : Bool := r.data.getLsbD 8

/-- The channel slots 0 to 2 of a bank (R161). -/
def slots : List Byte := [0, 1, 2]

/-- `SESSION_START rate` (R152). `created` and `destroyed` say whether the engine's operations succeed. A rate of `2^32` or
more is issued as its low 32 bits (log entry 17). -/
def Session.start (p : HostParams) (created destroyed : Bool) (rate : Nat) (h : Session) : MacroResult Bool :=
  h.issue .status fun st h =>
    if st.flag then h.return false
    else
      let c := h.engineCreate created
      if !c.1 then c.2.return false
      else
        (c.2.engine .reset).issue (.start rate) fun r h =>
          if !r.ok || !r.flag then (h.engineDestroy destroyed).2.return false
          else
            let h := p.modeWrites.foldl (fun h w => h.engineWrite (if w.1 then .high else .low) w.2.1 w.2.2) h
            (slots.foldl (fun h s => h.writeBoth (p.addrPanAmsPms + s) p.panCenter) h).return true

/-- `SESSION_STOP` (R153): `STOP` is issued whatever the engine's destroy answers (log entry 18 for what that leaves). -/
def Session.stop (destroyed : Bool) (h : Session) : MacroResult Bool :=
  h.issue .status fun st h =>
    if !st.flag then h.return false
    else
      let d := h.engineDestroy destroyed
      d.2.issue .stop fun r h => h.return (d.1 && r.flag)

/-- One write of `SET_TONE`: the register address, the command whose byte is written, and the bits ORed in (R154). -/
structure ToneWrite where
  addr : Byte
  command : Instr
  orBits : Byte
  deriving DecidableEq, Repr

/-- The seven writes of an operator at offset `x` from the group bases (R154, R161). -/
def operatorWrites (p : HostParams) (x : Byte) (op : FmOperator) : List ToneWrite :=
  [⟨p.addrDtMl + x, .dtMl op.dt op.ml, 0⟩, ⟨p.addrTl + x, .tl op.tl, 0⟩, ⟨p.addrKsAr + x, .ksAr op.ks op.ar, 0⟩,
   ⟨p.addrAmDr + x, .amDr op.am op.dr, 0⟩, ⟨p.addrSr + x, .sr op.sr, 0⟩, ⟨p.addrSlRr + x, .slRr op.sl op.rr, 0⟩,
   ⟨p.addrSsgEg + x, .ssgEg op.ssgEg, 0⟩]

/-- The writes of one channel slot (R154). -/
def slotWrites (p : HostParams) (tone : FmTone) (s : Byte) : List ToneWrite :=
  [⟨p.addrFbAl + s, .fbAl tone.fb tone.al, 0⟩, ⟨p.addrPanAmsPms + s, .amsPms tone.ams tone.pms, p.panCenter⟩] ++
  (Param.opOffset.zip tone.operators).flatMap fun q => operatorWrites p (q.1 + s) q.2

/-- All the writes of `SET_TONE`, in order; each goes to both banks (R154). -/
def toneWrites (p : HostParams) (tone : FmTone) : List ToneWrite :=
  ⟨p.addrLfo, .lfoFreq tone.lfoFreq, 0⟩ :: slots.flatMap (slotWrites p tone)

/-- Issue the codec command of each write and write its byte to both banks (R154). -/
def Session.applyWrites : List ToneWrite → Session → MacroResult Unit
  | [], h => h.return ()
  | w :: rest, h => h.issue w.command fun r h => Session.applyWrites rest (h.writeBoth w.addr (w.orBits ||| r.byte))

/-- `SET_TONE tone` (R154): a no-op when not Active (C9). -/
def Session.setTone (p : HostParams) (tone : FmTone) (h : Session) : MacroResult Unit :=
  h.issue .status fun st h => if !st.flag then h.return () else h.applyWrites (toneWrites p tone)

/-- The bank an FM channel is reached through: LOW for 0 to 2, HIGH for 3 to 5 (R46, R155). -/
def channelBank (ch : Byte) : Bank := if ch.toNat < Param.channelsPerBank then .low else .high

/-- The channel's slot in its bank, `ch mod 3` (R155). -/
def channelSlot (ch : Byte) : Byte := BitVec.ofNat 8 (ch.toNat % Param.channelsPerBank)

/-- `NOTE_ON ch, pitch, octave` (R155): the high/block byte first, then the low byte, then the key byte. -/
def Session.noteOn (p : HostParams) (ch : Byte) (pitch : PitchClass) (octave : Byte) (h : Session) : MacroResult Unit :=
  h.issue .status fun st h =>
    if !st.flag then h.return ()
    else h.issue (.keyOn ch) fun k h =>
      if k.skip then h.return ()
      else h.issue (.noteFnum octave pitch.index) fun f h =>
        (((h.engineWrite (channelBank ch) (p.addrFnumHi + channelSlot ch) f.highByte).engineWrite
          (channelBank ch) (p.addrFnumLo + channelSlot ch) f.byte).engineWrite .low Param.addrKey k.byte).return ()

/-- `NOTE_OFF ch` (R156): the key byte only. -/
def Session.noteOff (ch : Byte) (h : Session) : MacroResult Unit :=
  h.issue .status fun st h =>
    if !st.flag then h.return ()
    else h.issue (.keyOff ch) fun k h =>
      if k.skip then h.return () else (h.engineWrite .low Param.addrKey k.byte).return ()

/-- `EngineGenerate(m)`: one `PUSH` per native tick, the samples from tick `t` on free inputs (R150). DESIGN CHOICE (log entry
19): a sample wider than 16 bits is narrowed to its low 16 bits by `encode`; R208 leaves the narrowing outside the spec. -/
def Session.engineGenerate {α : Type} (engine : Nat → Int × Int) :
    Nat → Nat → Session → (Session → MacroResult α) → MacroResult α
  | 0, _, h, k => k h
  | m + 1, t, h, k =>
    h.issue (.push (engine t).1 (engine t).2) fun _ h => Session.engineGenerate engine m (t + 1) h k

/-- The `POP` that ends `GENERATE`, returning its beats (R157). -/
def Session.popBeats (count : Nat) (h : Session) : MacroResult (List Beat) :=
  h.issue (.pop count) fun r h => h.return r.beats

/-- `GENERATE count` (R157): the beats written to the outputs; none when not Active. `engine t` is the engine's sample of
native tick `t` of this call. A count of `2^32` or more is issued to `NEEDED` and to `POP` as low 32 bits (log entry 17). -/
def Session.generate (engine : Nat → Int × Int) (count : Nat) (h : Session) : MacroResult (List Beat) :=
  h.issue .status fun st h =>
    if !st.flag then h.return []
    else h.issue .avail fun a h =>
      if a.data.toNat < count then
        h.issue (.needed (count - a.data.toNat)) fun m h =>
          Session.engineGenerate engine m.data.toNat 0 (h.engine (.generate m.data.toNat)) fun h =>
            h.issue .endframe fun _ h => h.popBeats count
      else h.popBeats count

end Sys2Proof.Machine
end

