-- ==== Sys2Proof/Safety.lean ====
section
/-! DEFINITION. What the statements say of states and runs: the invariants of rules R22, R23, R42 and those behind R26 and
R94, the end of a run (R160), and, in the spec's own arithmetic, what a push, the end of a frame and a pop make of a
channel (R83, R85, R90), the bytes of the codec (R122 to R134), the bits a command uses (R64 to R66). -/

namespace Sys2Proof.Machine

/-- The lock-step invariant (R22). -/
abbrev State.Lockstep (s : State) : Prop :=
  s.left.tick = s.right.tick ∧ s.left.offset = s.right.offset ∧ s.left.avail = s.right.avail ∧ s.left.rd = s.right.rd

/-- The range of each register of a channel (R23). DEDUCED (log entry 8): the tick bound is not strict, since the push that
reaches it is accepted (R26 (a)). -/
abbrev Channel.InRange (cfg : Config) (c : Channel) : Prop :=
  c.avail ≤ Param.capacity ∧ c.offset < 2 ^ Param.timeBits ∧ c.rd < cfg.lineLen ∧
  (-(2 ^ 15) ≤ c.prev ∧ c.prev < 2 ^ 15) ∧ c.tick ≤ (Param.capacity + 1) * Param.maxRatio

/-- Every register of R10 but `active` at its reset value (R23, R30). -/
abbrev State.Cleared (s : State) : Prop :=
  s.factor = 0 ∧ s.faultOvf = false ∧ s.left = Channel.reset ∧ s.right = Channel.reset

/-- The range invariants (R23) with the legal range of `factor` (R12). -/
abbrev State.InRange (s : State) : Prop :=
  s.left.InRange s.cfg ∧ s.right.InRange s.cfg ∧
  (s.active = true → 2 ^ 17 ≤ s.factor ∧ s.factor ≤ 2 ^ 47) ∧ (s.active = false → s.Cleared)

/-- The range invariants word for word as R23 has them, the tick bound strict. Not kept by every step: the push at the
smallest factor that reaches the bound is accepted by R83 and R84 (log entry 8), and a run from reset comes to it
(`tick_bound_is_reached` in Laws/TickBound.lean). -/
abbrev State.InRangeAsWorded (s : State) : Prop :=
  s.InRange ∧ s.left.tick < (Param.capacity + 1) * Param.maxRatio ∧ s.right.tick < (Param.capacity + 1) * Param.maxRatio

/-- Both delta lines are in canonical form and list only entries that exist, ring index below `LINE_LEN` (R20, R40). -/
abbrev State.RingsWf (s : State) : Prop :=
  (Memory.wf s.left.ring = true ∧ ∀ cell ∈ s.left.ring, cell.1 < s.cfg.lineLen) ∧
  (Memory.wf s.right.ring = true ∧ ∀ cell ∈ s.right.ring, cell.1 < s.cfg.lineLen)

/-- Occupancy: at and above `W` entries beyond the present position on the line, every entry is 0 (R42). -/
def Channel.ClearAbove (cfg : Config) (factor : Nat) (c : Channel) : Prop :=
  ∀ x, x < cfg.lineLen → c.pushIndex factor + cfg.taps ≤ x → c.lineRead cfg.lineLen x = 0

/-- Occupancy of both lines (R42). -/
def State.Occupied (s : State) : Prop := s.left.ClearAbove s.cfg s.factor ∧ s.right.ClearAbove s.cfg s.factor

/-- The integrator's value after `k` more entries are popped. -/
def Channel.partialSum (len : Nat) (c : Channel) (k : Nat) : Int :=
  c.acc + ((List.range k).map (c.lineRead len)).sum

/-- What the line still owes and the integrator add up to the level of the last sample: by unity gain each push puts
`UNIT * d` on the line (R43 (a), R94). -/
def Channel.Balanced (len : Nat) (c : Channel) : Prop := c.partialSum len len = Param.unit * c.prev

/-- Both channels balanced. -/
def State.Balanced (s : State) : Prop := s.left.Balanced s.cfg.lineLen ∧ s.right.Balanced s.cfg.lineLen

/-- The present time in units of `2^-TIME_BITS` output samples after logical line index 0 (R16, R83). -/
def Channel.now (factor : Nat) (c : Channel) : Nat := c.avail * 2 ^ Param.timeBits + c.position factor

/-- How many pushes can have reached the partial sum up to line index `k` only in part: those whose position lay in the
`W - 1` output-sample intervals below `k` (R26 (c), (d)). -/
def Channel.partialPushes (cfg : Config) (factor : Nat) (c : Channel) (k : Nat) : Nat :=
  min (ceilDiv (c.now factor + (cfg.taps - 1) * 2 ^ Param.timeBits - k * 2 ^ Param.timeBits) factor)
    (ceilDiv ((cfg.taps - 1) * 2 ^ Param.timeBits) factor + 1)

/-- The bound behind R26 (c) and (d): a partial sum is a sample level times `UNIT` and a part of at most `partialPushes`
pushes, each below `2^33`. -/
def Channel.LineBounded (cfg : Config) (factor : Nat) (c : Channel) : Prop :=
  ∀ k, k ≤ cfg.lineLen → (c.partialSum cfg.lineLen k).natAbs ≤ 2 ^ 30 + 2 ^ 33 * c.partialPushes cfg factor k

/-- Both lines bounded. -/
def State.LineBounded (s : State) : Prop := s.left.LineBounded s.cfg s.factor ∧ s.right.LineBounded s.cfg s.factor

/-- The model's invariant: everything above, for a valid configuration. -/
def State.Inv (s : State) : Prop :=
  s.cfg.Valid ∧ s.Lockstep ∧ s.InRange ∧ s.RingsWf ∧ s.Occupied ∧ s.Balanced ∧ s.LineBounded

/-- A run is in a bad end state if `fault_ovf = 1` at its end (R160). -/
abbrev State.BadEnd (s : State) : Prop := s.faultOvf = true

/-- The registers of R10 and the configuration agree; the port may differ. -/
abbrev State.SameHardware (s t : State) : Prop :=
  s.cfg = t.cfg ∧ s.active = t.active ∧ s.factor = t.factor ∧ s.faultOvf = t.faultOvf ∧ s.left = t.left ∧ s.right = t.right

/-- The commands of the codec unit, opcode `0x1_` (R63). -/
def isCodecCommand (i : Instr) : Bool := decide (0x10 ≤ i.opcode.toNat)

/-! ### What a command makes of a channel, in the spec's arithmetic -/

/-- `c'` is `c` after an accepted push of sample `v` (R83): tap `j` adds `KERNEL[p][j] * d` at logical index `avail + i + j`
and every other entry is as before. -/
abbrev Channel.PushedTo (cfg : Config) (factor : Nat) (v : Int) (c c' : Channel) : Prop :=
  c'.prev = v ∧ c'.tick = c.tick + 1 ∧ c'.offset = c.offset ∧ c'.avail = c.avail ∧ c'.rd = c.rd ∧ c'.acc = c.acc ∧
  (∀ j, j < cfg.taps →
    c'.lineRead cfg.lineLen (c.avail + (c.tick * factor + c.offset) / 2 ^ 32 + j) =
      c.lineRead cfg.lineLen (c.avail + (c.tick * factor + c.offset) / 2 ^ 32 + j) +
        kernelAt cfg ((c.tick * factor + c.offset) / 2 ^ 27 % 32) j * (v - c.prev)) ∧
  (∀ x, x < cfg.lineLen →
    (x < c.avail + (c.tick * factor + c.offset) / 2 ^ 32 ∨ c.avail + (c.tick * factor + c.offset) / 2 ^ 32 + cfg.taps ≤ x) →
    c'.lineRead cfg.lineLen x = c.lineRead cfg.lineLen x)

/-- The output sample after the first `m + 1` pending entries: the integrator with them added, floored by 15 bits and clamped
to 16 (R90). -/
def Channel.sampleAt (cfg : Config) (c : Channel) (m : Nat) : Int :=
  max (-32768) (min ((c.acc + ((List.range (m + 1)).map (c.lineRead cfg.lineLen)).sum) / 32768) 32767)

/-- `c'` is `c` after a pop of `k` entries (R90): integrated, cleared, and the rest renumbered down by `k`. -/
abbrev Channel.PoppedTo (cfg : Config) (k : Nat) (c c' : Channel) : Prop :=
  c'.prev = c.prev ∧ c'.tick = c.tick ∧ c'.offset = c.offset ∧ c'.avail = c.avail - k ∧ c'.rd = (c.rd + k) % cfg.lineLen ∧
  c'.acc = c.acc + ((List.range k).map (c.lineRead cfg.lineLen)).sum ∧
  (∀ x, x < cfg.lineLen →
    c'.lineRead cfg.lineLen x = if x + k < cfg.lineLen then c.lineRead cfg.lineLen (x + k) else 0)

/-! ### The codec's bytes and the bits a command uses -/

/-- The byte of each packer as a number, each field cut to its width and set at its place (R122 to R131, R136). -/
def packedNumber : Instr → Option Nat
  | .fbAl fb al => some (fb.toNat % 8 * 8 + al.toNat % 8)
  | .lfoFreq freq => some (freq.toNat % 16)
  | .amsPms ams pms => some (ams.toNat % 4 * 16 + pms.toNat % 8)
  | .dtMl dt ml => some (dt.toNat % 8 * 16 + ml.toNat % 16)
  | .tl level => some (level.toNat % 64)
  | .ksAr ks ar => some (ks.toNat % 4 * 64 + ar.toNat % 32)
  | .amDr am dr => some (am.toNat * 128 + dr.toNat % 32)
  | .sr rate => some (rate.toNat % 32)
  | .slRr sl rr => some (sl.toNat % 16 * 16 + rr.toNat % 16)
  | .ssgEg e => some (e.toNat % 16)
  | .start _ => none
  | .stop => none
  | .push _ _ => none
  | .endframe => none
  | .needed _ => none
  | .avail => none
  | .pop _ => none
  | .status => none
  | .noteFnum _ _ => none
  | .keyOn _ => none
  | .keyOff _ => none

/-- `M`, the OR of a packer's shifted field masks, with the packer's command on the fields taken out of a byte `v` (R135). -/
def repacked (v : Byte) : Instr → Option (Byte × Instr)
  | .fbAl _ _ => some (0x3F, .fbAl (v >>> 3 &&& 0x7) (v &&& 0x7))
  | .lfoFreq _ => some (0x0F, .lfoFreq (v &&& 0xF))
  | .amsPms _ _ => some (0x37, .amsPms (v >>> 4 &&& 0x3) (v &&& 0x7))
  | .dtMl _ _ => some (0x7F, .dtMl (v >>> 4 &&& 0x7) (v &&& 0xF))
  | .tl _ => some (0x3F, .tl (v &&& 0x3F))
  | .ksAr _ _ => some (0xDF, .ksAr (v >>> 6 &&& 0x3) (v &&& 0x1F))
  | .amDr _ _ => some (0x9F, .amDr (v.getLsbD 7) (v &&& 0x1F))
  | .sr _ => some (0x1F, .sr (v &&& 0x1F))
  | .slRr _ _ => some (0xFF, .slRr (v >>> 4 &&& 0xF) (v &&& 0xF))
  | .ssgEg _ => some (0x0F, .ssgEg (v &&& 0xF))
  | .start _ => none
  | .stop => none
  | .push _ _ => none
  | .endframe => none
  | .needed _ => none
  | .avail => none
  | .pop _ => none
  | .status => none
  | .noteFnum _ _ => none
  | .keyOn _ => none
  | .keyOff _ => none

/-- The bits of the command word that each command uses; every other bit is ignored (R60, R64 to R66). -/
def usedBits : Instr → CmdWord
  | .start _ => 0xFFFFFFFFFF
  | .stop => 0xFF00000000
  | .push _ _ => 0xFFFFFFFFFF
  | .endframe => 0xFF00000000
  | .needed _ => 0xFFFFFFFFFF
  | .avail => 0xFF00000000
  | .pop _ => 0xFFFFFFFFFF
  | .status => 0xFF00000000
  | .fbAl _ _ => 0xFF0000FFFF
  | .lfoFreq _ => 0xFF000000FF
  | .amsPms _ _ => 0xFF0000FFFF
  | .dtMl _ _ => 0xFF0000FFFF
  | .tl _ => 0xFF000000FF
  | .ksAr _ _ => 0xFF0000FFFF
  | .amDr _ _ => 0xFF000001FF
  | .sr _ => 0xFF000000FF
  | .slRr _ _ => 0xFF0000FFFF
  | .ssgEg _ => 0xFF000000FF
  | .noteFnum _ _ => 0xFF0000FFFF
  | .keyOn _ => 0xFF000000FF
  | .keyOff _ => 0xFF000000FF

/-! ### What the right output can depend on -/

/-- All of a state but what belongs to the left lane alone (left `prev`, `acc`, ring and left samples): the registers that
are common to both lanes by R22, the right lane, and the response with the right sample of each beat (R99). -/
structure RightView where
  cfg : Config
  active : Bool
  factor : Nat
  faultOvf : Bool
  leftCounters : Nat × Nat × Nat × Nat
  right : Channel
  pending : List CmdWord
  rsp : Option (Bool × DataWord × List Int)
  deriving DecidableEq, Repr

/-- The right view of a state (R99). -/
def State.rightView (s : State) : RightView where
  cfg := s.cfg
  active := s.active
  factor := s.factor
  faultOvf := s.faultOvf
  leftCounters := (s.left.tick, s.left.offset, s.left.avail, s.left.rd)
  right := s.right
  pending := s.pending
  rsp := s.rsp.map fun r => (r.ok, r.data, r.beats.map Beat.right)

/-- Two commands that differ at most in the left sample of a push. -/
def sameButLeft : Instr → Instr → Prop
  | .push _ r, .push _ r' => r = r'
  | i, j => i = j

end Sys2Proof.Machine
end

