-- ==== Sys2Proof/Certificates/Slice0/Obligations.lean ====
section
/-! DEFINITION. The statements for the provers. A state is any state unless a premise says otherwise; the premises that rule
out states no run reaches are the invariants of Safety.lean, each the subject of a statement of its own. -/

open Sys2Proof Sys2Proof.Machine

/-! ### Encoding -/

/-- Decode and encode agree on every well-formed command (R60, R63, R64). -/
def Obligations.DecodeOfEncodeIsTheCommand : Prop :=
  ∀ i : Instr, i.wellFormed = true → decode (encode i) = .command i

/-- What the decoder gives is well formed, and its word is the decoded word with the ignored bits cleared (R64 to R66, R69). -/
def Obligations.DecodedCommandReencodesToItsUsedBits : Prop :=
  ∀ (w : CmdWord) (i : Instr), decode w = .command i → i.wellFormed = true ∧ encode i = w &&& usedBits i

/-- Ignored bits: two words that agree on the bits a command uses decode alike (R66). -/
def Obligations.IgnoredBitsDoNotMatter : Prop :=
  ∀ (w w' : CmdWord) (i : Instr), decode w = .command i → w' &&& usedBits i = w &&& usedBits i → decode w' = .command i

/-- A word is rejected exactly when its opcode is 0x00, 0x09 to 0x0F or 0x1D to 0xFF (R67). -/
def Obligations.IllegalExactlyOutsideTheTable : Prop :=
  ∀ w : CmdWord, decode w = .illegalOpcode (opField w) ↔
    ((opField w).toNat = 0 ∨ (9 ≤ (opField w).toNat ∧ (opField w).toNat ≤ 15) ∨ 29 ≤ (opField w).toNat)

/-- Words of 95_test_vectors.md section 3, bit for bit. -/
def Obligations.PrintedWordsDecode : Prop :=
  decode 0x010000AC44 = .command (.start 44100) ∧ decode 0x037FFF8000 = .command (.push 32767 (-32768)) ∧
  decode 0x02DEADBEEF = .command .stop ∧ decode 0x1A00000409 = .command (.noteFnum 4 9) ∧
  decode 0x0900000000 = .illegalOpcode 9

/-- The examples of R69, character for character. -/
def Obligations.PrintedLinesAssemble : Prop :=
  assembleLine "START 44100".toList = .word 0x010000AC44 ∧ assembleLine "PUSH 100, -100".toList = .word 0x030064FF9C ∧
  assembleLine "POP 2000".toList = .word 0x07000007D0 ∧ assembleLine "KS_AR 3, 31".toList = .word 0x150000031F ∧
  assembleLine "NOTE_FNUM 4, 9".toList = .word 0x1A00000409

/-! ### The port -/

/-- A step takes the next word and carries out the command it decodes to (R50, R71). -/
def Obligations.StepCarriesOutTheDecodedCommand : Prop :=
  ∀ (s : State) (w : CmdWord) (rest : List CmdWord) (i : Instr), s.pending = w :: rest → decode w = .command i →
    step s = exec i { s with pending := rest }

/-- An illegal command changes no register and answers `(0, 1)` (R67). -/
def Obligations.StepAnswersAnIllegalOpcode : Prop :=
  ∀ (s : State) (w : CmdWord) (rest : List CmdWord), s.pending = w :: rest →
    ((opField w).toNat = 0 ∨ (9 ≤ (opField w).toNat ∧ (opField w).toNat ≤ 15) ∨ 29 ≤ (opField w).toNat) →
    step s = .next { s with pending := rest, rsp := some ⟨false, 1, []⟩ }

/-- With no command issued nothing changes (R71); that such a step is a next state is the model's choice (log entry 2). -/
def Obligations.StepWithNothingIssuedChangesNothing : Prop :=
  ∀ s : State, s.pending = [] → step s = .next s

/-- Nothing stops the model: every command and every step has a next state. DEDUCED from R180 and R181, which say that every
abnormal outcome is an answer (log entry 10); for the step with no command issued it is the DESIGN CHOICE of log entry 2. -/
def Obligations.NothingStopsTheHardware : Prop :=
  (∀ (i : Instr) (s : State), ∃ t, exec i s = .next t) ∧ ∀ s : State, ∃ t, step s = .next t

/-- Feeding the words of a program to the port is carrying out its commands in order (R24, R50, R160). That the words of a whole
program wait at the port before the first answer is the model's DESIGN CHOICE (log entry 1; in R159 the host waits for each). -/
def Obligations.PortRunsTheProgramInOrder : Prop :=
  ∀ (is : List Instr) (s : State), (∀ i ∈ is, i.wellFormed = true) →
    Sys2Proof.core.run is.length { s with pending := is.map encode } = runCommands is { s with pending := [] }

/-! ### Reset and lifecycle -/

/-- Power-on values, what `START` sets and what `STOP` returns to (R30). -/
def Obligations.PowerOnStartAndStopValues : Prop :=
  (State.reset.active = false ∧ State.reset.factor = 0 ∧ State.reset.faultOvf = false ∧
    State.reset.left = ⟨0, 0, 0, 0, 0, 0, []⟩ ∧ State.reset.right = ⟨0, 0, 0, 0, 0, 0, []⟩ ∧
    ∀ len x, State.reset.left.lineRead len x = 0 ∧ State.reset.right.lineRead len x = 0) ∧
  (∀ (rate : Nat) (s : State), s.active = false → rateUnusable s.cfg.nativeRate rate = false →
    ∃ t, exec (.start rate) s = .next t ∧ t.active = true ∧
      t.factor = (rate * 2 ^ 32 + s.cfg.nativeRate - 1) / s.cfg.nativeRate ∧ t.faultOvf = State.reset.faultOvf ∧
      t.left = State.reset.left ∧ t.right = State.reset.right ∧ t.cfg = s.cfg) ∧
  (∀ s : State, s.active = true → ∃ t, exec .stop s = .next t ∧ t.active = State.reset.active ∧
    t.factor = State.reset.factor ∧ t.faultOvf = State.reset.faultOvf ∧ t.left = State.reset.left ∧
    t.right = State.reset.right ∧ t.cfg = s.cfg)

/-- The state after power-on reset meets the model's invariant. -/
def Obligations.ResetMeetsTheInvariant : Prop := State.reset.Inv

/-- `START rate`: its words, every case in the order of R80, and all that it leaves alone. -/
def Obligations.StartResult : Prop :=
  (∀ w : CmdWord, opField w = 0x01 → decode w = .command (.start (argField w).toNat)) ∧
  ∀ (rate : Nat) (s : State), exec (.start rate) s = .next
    (if s.active = true then { s with rsp := some ⟨true, 0, []⟩ }
     else if rate = 0 ∨ s.cfg.nativeRate * 32768 < rate ∨ rate * 32768 < s.cfg.nativeRate then
       { s with rsp := some ⟨false, 2, []⟩ }
     else { s with
       active := true, factor := (rate * 2 ^ 32 + s.cfg.nativeRate - 1) / s.cfg.nativeRate, faultOvf := false,
       left := ⟨0, 0, 0, 0, 0, 0, []⟩, right := ⟨0, 0, 0, 0, 0, 0, []⟩, rsp := some ⟨true, 1, []⟩ })

/-- `STOP`: its words and both cases (R81). -/
def Obligations.StopResult : Prop :=
  (∀ w : CmdWord, opField w = 0x02 → decode w = .command .stop) ∧
  ∀ s : State, exec .stop s = .next
    (if s.active = false then { s with rsp := some ⟨true, 0, []⟩ }
     else { s with
       active := false, factor := 0, faultOvf := false, left := ⟨0, 0, 0, 0, 0, 0, []⟩,
       right := ⟨0, 0, 0, 0, 0, 0, []⟩, rsp := some ⟨true, 1, []⟩ })

/-- `STATUS`, its words and its answer in every state: bit 0 `active`, bit 1 `fault_ovf`, nothing changed (R92). -/
def Obligations.StatusResult : Prop :=
  (∀ w : CmdWord, opField w = 0x08 → decode w = .command .status) ∧
  ∀ s : State, exec .status s = .next
    { s with rsp := some ⟨true, BitVec.ofNat 32 (s.active.toNat + 2 * s.faultOvf.toNat), []⟩ }

/-- From a state that meets the ranges, what follows a `STOP` is what follows a power-on reset, whatever the commands: same
registers, same responses (R201). -/
def Obligations.AfterStopIsAfterReset : Prop :=
  ∀ (s t : State) (is : List Instr), s.InRange → runCommands (.stop :: is) s = .next t →
    ∃ u, runCommands is { State.reset with cfg := s.cfg, pending := s.pending } = .next u ∧ t.SameHardware u ∧
      (is ≠ [] → t.rsp = u.rsp)

/-! ### The pre-check and failures -/

/-- The pre-check: with no session each data command is a no-op answering `(1, 0)` without beats, and in the faulted state
it is refused `(0, 3)`; nothing else changes (R82, R184). -/
def Obligations.PreCheckOfTheDataCommands : Prop :=
  ∀ (i : Instr) (s : State),
    (i = .endframe ∨ i = .avail ∨ (∃ l r, i = .push l r) ∨ (∃ n, i = .needed n) ∨ ∃ n, i = .pop n) →
    (s.active = false → exec i s = .next { s with rsp := some ⟨true, 0, []⟩ }) ∧
    (s.active = true → s.faultOvf = true → exec i s = .next { s with rsp := some ⟨false, 3, []⟩ })

/-- A push or an end of a frame beyond the capacity sets `fault_ovf`, answers `(0, 4)` and changes nothing else (R182). -/
def Obligations.OverflowFaultSetsOneBit : Prop :=
  ∀ (l r : Int) (s : State), s.active = true → s.faultOvf = false →
    ((65536 < s.left.avail + (s.left.tick * s.factor + s.left.offset) / 2 ^ 32 ∨
      65536 < s.right.avail + (s.right.tick * s.factor + s.right.offset) / 2 ^ 32) →
      exec (.push l r) s = .next { s with faultOvf := true, rsp := some ⟨false, 4, []⟩ } ∧
      exec .endframe s = .next { s with faultOvf := true, rsp := some ⟨false, 4, []⟩ })

/-- While the fault is set no command but `STOP` changes a register (R13, R182). -/
def Obligations.FaultedStateIsChangedByStopOnly : Prop :=
  ∀ (i : Instr) (s t : State), s.active = true → s.faultOvf = true → i ≠ .stop → exec i s = .next t → t.SameHardware s

/-- `fault_ovf` is set only by a push or an end of a frame, and cleared only by `STOP` (R13). -/
def Obligations.FaultBitWriters : Prop :=
  ∀ (i : Instr) (s t : State), s.InRange → exec i s = .next t →
    (s.faultOvf = false → t.faultOvf = true → i = .endframe ∨ ∃ l r, i = .push l r) ∧
    (s.faultOvf = true → t.faultOvf = false → i = .stop)

/-- Precise failures: a command that answers `rsp_ok = 0` has changed nothing, or has set `fault_ovf` and answered 4 (R183,
R187). -/
def Obligations.FailedCommandsHaveNoPartialEffect : Prop :=
  ∀ (i : Instr) (s t : State) (r : Response), exec i s = .next t → t.rsp = some r → r.ok = false →
    r.beats = [] ∧ ((r.data = 4 ∧ t = { s with faultOvf := true, rsp := some r }) ∨
      ((r.data = 2 ∨ r.data = 3) ∧ t = { s with rsp := some r }))

/-- `factor` never changes while the unit stays active (R12, R206). -/
def Obligations.FactorIsFixedWhileActive : Prop :=
  ∀ s t : State, step s = .next t → s.active = true → t.active = true → t.factor = s.factor

/-- `active` is written only by `START` and `STOP` (R11). -/
def Obligations.ActiveBitWriters : Prop :=
  ∀ (i : Instr) (s t : State), exec i s = .next t →
    (s.active = false → t.active = true → ∃ rate, i = .start rate) ∧ (s.active = true → t.active = false → i = .stop)

/-! ### The resampler's data commands -/

/-- An accepted `PUSH`: both channels as R83 says, every other entry of both lines and every other register unchanged,
answer `(1, 0)` (R83, R84). -/
def Obligations.PushResult : Prop :=
  ∀ (l r : Int) (s : State), s.active = true → s.faultOvf = false → s.RingsWf →
    s.left.avail + (s.left.tick * s.factor + s.left.offset) / 2 ^ 32 ≤ 65536 →
    s.right.avail + (s.right.tick * s.factor + s.right.offset) / 2 ^ 32 ≤ 65536 →
    ∃ t, exec (.push l r) s = .next t ∧ t = { s with left := t.left, right := t.right, rsp := some ⟨true, 0, []⟩ } ∧
      s.left.PushedTo s.cfg s.factor l t.left ∧ s.right.PushedTo s.cfg s.factor r t.right

/-- Finished frames keep their values until they are popped (R31): of an active unit no command but `POP` and `STOP` changes
an entry counted in `avail`, and `POP` leaves those it does not drain, renumbered. -/
def Obligations.FinishedEntriesKeepTheirValues : Prop :=
  ∀ (i : Instr) (s t : State) (x : Nat), s.active = true → s.faultOvf = false → s.left.avail ≤ 65536 →
    s.right.avail ≤ 65536 → i ≠ .stop → exec i s = .next t →
    ((∀ n, i ≠ .pop n) →
      (x < s.left.avail → t.left.lineRead s.cfg.lineLen x = s.left.lineRead s.cfg.lineLen x) ∧
      (x < s.right.avail → t.right.lineRead s.cfg.lineLen x = s.right.lineRead s.cfg.lineLen x)) ∧
    (∀ n, i = .pop n →
      (x + min n s.left.avail < s.left.avail →
        t.left.lineRead s.cfg.lineLen x = s.left.lineRead s.cfg.lineLen (x + min n s.left.avail)) ∧
      (x + min n s.right.avail < s.right.avail →
        t.right.lineRead s.cfg.lineLen x = s.right.lineRead s.cfg.lineLen (x + min n s.right.avail)))

/-- An accepted `ENDFRAME`: the frame's length becomes whole samples and a carried fraction in both channels, the lines and
every other register stay, the answer is `min(added_L, added_R)` (R85, R86). -/
def Obligations.EndframeResult : Prop :=
  ∀ s : State, s.active = true → s.faultOvf = false →
    s.left.avail + (s.left.tick * s.factor + s.left.offset) / 2 ^ 32 ≤ 65536 →
    s.right.avail + (s.right.tick * s.factor + s.right.offset) / 2 ^ 32 ≤ 65536 →
    exec .endframe s = .next { s with
      left := { s.left with
        avail := s.left.avail + (s.left.tick * s.factor + s.left.offset) / 2 ^ 32,
        offset := (s.left.tick * s.factor + s.left.offset) % 2 ^ 32, tick := 0 },
      right := { s.right with
        avail := s.right.avail + (s.right.tick * s.factor + s.right.offset) / 2 ^ 32,
        offset := (s.right.tick * s.factor + s.right.offset) % 2 ^ 32, tick := 0 },
      rsp := some ⟨true, BitVec.ofNat 32 (min ((s.left.tick * s.factor + s.left.offset) / 2 ^ 32)
        ((s.right.tick * s.factor + s.right.offset) / 2 ^ 32)), []⟩ }

/-- `NEEDED n`: its words, every case in the order of R82 and R88, the frame size as R87 has it. -/
def Obligations.NeededResult : Prop :=
  (∀ w : CmdWord, opField w = 0x05 → decode w = .command (.needed (argField w).toNat)) ∧
  ∀ (n : Nat) (s : State), exec (.needed n) s = .next
    (if s.active = false then { s with rsp := some ⟨true, 0, []⟩ }
     else if s.faultOvf = true then { s with rsp := some ⟨false, 3, []⟩ }
     else if 65536 < n then { s with rsp := some ⟨false, 2, []⟩ }
     else { s with rsp := some ⟨true, BitVec.ofNat 32 (if n = 0 then 0 else
       max ((n * 2 ^ 32 - s.left.offset + s.factor - 1) / s.factor)
         ((n * 2 ^ 32 - s.right.offset + s.factor - 1) / s.factor)), []⟩ })

/-- The answer of `NEEDED n` is the least length of a whole frame that adds `n` samples in both channels (R87). -/
def Obligations.NeededIsTheLeastFrameLength : Prop :=
  ∀ (n m : Nat) (s t : State) (d : DataWord), s.InRange → s.active = true → exec (.needed n) s = .next t →
    t.rsp = some ⟨true, d, []⟩ →
    (d.toNat ≤ m ↔ n ≤ (m * s.factor + s.left.offset) / 2 ^ 32 ∧ n ≤ (m * s.factor + s.right.offset) / 2 ^ 32)

/-- `AVAIL`: its words, every case in the order of R82 and R89. -/
def Obligations.AvailResult : Prop :=
  (∀ w : CmdWord, opField w = 0x06 → decode w = .command .avail) ∧
  ∀ s : State, exec .avail s = .next
    (if s.active = false then { s with rsp := some ⟨true, 0, []⟩ }
     else if s.faultOvf = true then { s with rsp := some ⟨false, 3, []⟩ }
     else { s with rsp := some ⟨true, BitVec.ofNat 32 (min s.left.avail s.right.avail), []⟩ })

/-- `POP count`: each channel drained of its own count, every other register unchanged, the smaller count answered and that
many beats delivered, oldest first (R90, R91). -/
def Obligations.PopResult : Prop :=
  ∀ (count : Nat) (s : State), s.active = true → s.faultOvf = false → s.RingsWf → s.left.avail ≤ 65536 →
    s.right.avail ≤ 65536 →
    ∃ t, exec (.pop count) s = .next t ∧
      t = { s with
        left := t.left, right := t.right,
        rsp := some ⟨true, BitVec.ofNat 32 (min (min count s.left.avail) (min count s.right.avail)),
          (List.range (min (min count s.left.avail) (min count s.right.avail))).map fun m =>
            ⟨s.left.sampleAt s.cfg m, s.right.sampleAt s.cfg m⟩⟩ } ∧
      s.left.PoppedTo s.cfg (min count s.left.avail) t.left ∧ s.right.PoppedTo s.cfg (min count s.right.avail) t.right

/-- Popping `a` and then `b` samples is popping `a + b`: the same registers and lines, the same samples in the same order. -/
def Obligations.PopsCompose : Prop :=
  ∀ (a b : Nat) (s t u v : State), s.active = true → s.faultOvf = false → s.Lockstep →
    exec (.pop a) s = .next t → exec (.pop b) t = .next u → exec (.pop (a + b)) s = .next v →
    u.SameHardware v ∧ ∃ r₁ r₂ r, t.rsp = some r₁ ∧ u.rsp = some r₂ ∧ v.rsp = some r ∧ r.beats = r₁.beats ++ r₂.beats

/-- The write cursor is moved by the end of a frame by what the frame produced, and left where it was by a pop (R21). -/
def Obligations.WriteCursorMoves : Prop :=
  ∀ (s t : State), s.active = true → s.faultOvf = false → s.InRange →
    (exec .endframe s = .next t → t.faultOvf = false →
      t.left.wr s.cfg.lineLen = (s.left.wr s.cfg.lineLen + (t.left.avail - s.left.avail)) % s.cfg.lineLen ∧
      t.right.wr s.cfg.lineLen = (s.right.wr s.cfg.lineLen + (t.right.avail - s.right.avail)) % s.cfg.lineLen) ∧
    (∀ n, exec (.pop n) s = .next t →
      t.left.wr s.cfg.lineLen = s.left.wr s.cfg.lineLen ∧ t.right.wr s.cfg.lineLen = s.right.wr s.cfg.lineLen)

/-! ### The codec -/

/-- The ten packers: their words, and for every value of their operand bytes: `rsp_ok = 1`, the fields cut and set at their places, every
register unchanged (R120, R122 to R131). -/
def Obligations.PackersResult : Prop :=
  (∀ w : CmdWord,
    (opField w = 0x10 → decode w = .command (.fbAl (aField w) (bField w))) ∧
    (opField w = 0x11 → decode w = .command (.lfoFreq (bField w))) ∧
    (opField w = 0x12 → decode w = .command (.amsPms (aField w) (bField w))) ∧
    (opField w = 0x13 → decode w = .command (.dtMl (aField w) (bField w))) ∧
    (opField w = 0x14 → decode w = .command (.tl (bField w))) ∧
    (opField w = 0x15 → decode w = .command (.ksAr (aField w) (bField w))) ∧
    (opField w = 0x16 → decode w = .command (.amDr ((aField w).getLsbD 0) (bField w))) ∧
    (opField w = 0x17 → decode w = .command (.sr (bField w))) ∧
    (opField w = 0x18 → decode w = .command (.slRr (aField w) (bField w))) ∧
    (opField w = 0x19 → decode w = .command (.ssgEg (bField w)))) ∧
  ∀ (i : Instr) (n : Nat) (s : State), packedNumber i = some n →
    exec i s = .next { s with rsp := some ⟨true, BitVec.ofNat 32 n, []⟩ }

/-- The ten packers are total and idempotent: the byte is a fixed point of the command's mask, and packing the fields taken
out of it gives it again (R135). -/
def Obligations.PackersAreIdempotent : Prop :=
  ∀ (i : Instr) (n : Nat) (s : State), packedNumber i = some n →
    ∃ (v mask : Byte) (j : Instr), repacked v i = some (mask, j) ∧ v &&& mask = v ∧
      exec i s = .next { s with rsp := some ⟨true, v.setWidth 32, []⟩ } ∧
      exec j s = .next { s with rsp := some ⟨true, v.setWidth 32, []⟩ }

/-- `NOTE_FNUM`: its words; refused for a pitch index above 11, else the octave's three bits above the eleven bits of the divider (R132). -/
def Obligations.NoteFnumResult : Prop :=
  (∀ w : CmdWord, opField w = 0x1A → decode w = .command (.noteFnum (aField w) (bField w))) ∧
  ∀ (octave pitch : Byte) (s : State), exec (.noteFnum octave pitch) s = .next { s with
    rsp := some (if 11 < pitch.toNat % 16 then ⟨false, 2, []⟩
      else ⟨true, BitVec.ofNat 32 (octave.toNat % 8 * 2048 + (s.cfg.fnumTable.getD (pitch.toNat % 16) 0).toNat), []⟩) }

/-- `KEY_ON`: its words, and the answer for every channel number (R133). -/
def Obligations.KeyOnResult : Prop :=
  (∀ w : CmdWord, opField w = 0x1B → decode w = .command (.keyOn (bField w))) ∧
  ∀ (ch : Byte) (s : State), exec (.keyOn ch) s = .next { s with
    rsp := some ⟨true, if 6 ≤ ch.toNat then 0x100
      else if ch.toNat < 3 then (s.cfg.slotFlags ||| ch).setWidth 32
      else (s.cfg.slotFlags ||| (s.cfg.highBankFlag ||| (ch - 3))).setWidth 32, []⟩ }

/-- `KEY_OFF`: its words, and the answer for every channel number, in the AND form (R134, C5). -/
def Obligations.KeyOffResult : Prop :=
  (∀ w : CmdWord, opField w = 0x1C → decode w = .command (.keyOff (bField w))) ∧
  ∀ (ch : Byte) (s : State), exec (.keyOff ch) s = .next { s with
    rsp := some ⟨true, if 6 ≤ ch.toNat then 0x100
      else if ch.toNat < 3 then (~~~s.cfg.slotFlags &&& ch).setWidth 32
      else (~~~s.cfg.slotFlags &&& (s.cfg.highBankFlag ||| (ch - 3))).setWidth 32, []⟩ }

/-- The codec unit has no state: a codec command's answer depends on its operands, the divider table and the two key-byte flags only, and
every register stays (R28). -/
def Obligations.CodecDependsOnOperandsAndConfigurationOnly : Prop :=
  ∀ (i : Instr) (s t : State), isCodecCommand i = true → s.cfg.fnumTable = t.cfg.fnumTable →
    s.cfg.slotFlags = t.cfg.slotFlags → s.cfg.highBankFlag = t.cfg.highBankFlag →
    ∃ r, exec i s = .next { s with rsp := some r } ∧ exec i t = .next { t with rsp := some r }

/-! ### Invariants that every step keeps -/

/-- Lock-step: it holds at reset and every step keeps it (R22). -/
def Obligations.StepKeepsLockstep : Prop :=
  State.reset.Lockstep ∧ ∀ s t : State, s.Lockstep → step s = .next t → t.Lockstep

/-- Ranges, with the reset values while inactive: every step keeps them (R23; the tick bound is log entry 8's). -/
def Obligations.StepKeepsRanges : Prop :=
  ∀ s t : State, s.InRange → step s = .next t → t.InRange

/-- Both lines stay in canonical form and within `LINE_LEN` (R20, R40; the form is the model's, log entry 6). -/
def Obligations.StepKeepsRingsCanonical : Prop :=
  ∀ s t : State, s.RingsWf → step s = .next t → t.RingsWf

/-- Occupancy: the line above the present position is clear, so that a push may add without clearing (R42). -/
def Obligations.StepKeepsOccupancy : Prop :=
  (∀ s t : State, s.InRange → s.RingsWf → s.Occupied → step s = .next t → t.Occupied) ∧
  (∀ (s : State) (x : Nat), s.InRange → s.Occupied → x < s.cfg.lineLen →
    (s.left.tick = 0 → s.left.avail + s.cfg.taps ≤ x → s.left.lineRead s.cfg.lineLen x = 0) ∧
    (s.right.tick = 0 → s.right.avail + s.cfg.taps ≤ x → s.right.lineRead s.cfg.lineLen x = 0))

/-- Unity gain kept through every step: what the line owes and the integrator add up to `UNIT` times the last sample (R43,
R94). -/
def Obligations.StepKeepsBalance : Prop :=
  ∀ s t : State, s.cfg.Valid → s.InRange → s.RingsWf → s.Balanced → step s = .next t → t.Balanced

/-- The bound on partial sums behind R26 (c), (d) is kept by every step. -/
def Obligations.StepKeepsLineBounds : Prop :=
  ∀ s t : State, s.Inv → step s = .next t → t.LineBounded

/-- The stated widths suffice wherever the invariant holds (R10, R26). -/
def Obligations.InvariantFitsTheStatedWidths : Prop :=
  ∀ s : State, s.Inv → s.factor < 2 ^ 48 ∧ ∀ c, (c = s.left ∨ c = s.right) →
    (-(2 ^ 15) ≤ c.prev ∧ c.prev < 2 ^ 15) ∧ c.tick < 2 ^ 32 ∧ c.offset < 2 ^ 32 ∧ c.avail < 2 ^ 17 ∧ c.rd < 2 ^ 17 ∧
    (-(2 ^ 63) ≤ c.acc ∧ c.acc < 2 ^ 63) ∧
    ∀ x, x < s.cfg.lineLen → -(2 ^ 63) ≤ c.lineRead s.cfg.lineLen x ∧ c.lineRead s.cfg.lineLen x < 2 ^ 63

/-- Expected to FAIL: the strict tick bound as R23 words it is not kept by a push at the smallest factor (log entry 8). -/
def Obligations.StrictTickBoundSurvivesEveryPush : Prop :=
  ∀ (l r : Int) (s t : State), s.Inv → s.left.tick < (65536 + 1) * 32768 → exec (.push l r) s = .next t →
    t.left.tick < (65536 + 1) * 32768

/-- The ranges word for word as R23 has them: they hold at reset, and the only step that leaves them is a push at the smallest
factor with the tick counter one below its bound (log entry 8: DEDUCED from R26 (a), R83 and R84). -/
def Obligations.OnlyTheLastPushLeavesTheWordedRanges : Prop :=
  State.reset.InRangeAsWorded ∧
  ∀ s t : State, s.InRangeAsWorded → step s = .next t →
    t.InRangeAsWorded ∨
      (s.factor = 2 ^ 17 ∧ (s.left.tick + 1 = (65536 + 1) * 32768 ∨ s.right.tick + 1 = (65536 + 1) * 32768) ∧
        ∃ w rest l r, s.pending = w :: rest ∧ decode w = .command (.push l r))

/-! ### Whole runs -/

/-- Frame splitting: two frames of `m1` and `m2` ticks leave every register and line entry as one frame of `m1 + m2` ticks
does, provided neither faults (R96). -/
def Obligations.FramesCanBeSplit : Prop :=
  ∀ (s t u : State) (xs ys : List (Int × Int)),
    runCommands (pushes xs ++ .endframe :: (pushes ys ++ [.endframe])) s = .next t →
    runCommands (pushes (xs ++ ys) ++ [.endframe]) s = .next u →
    t.faultOvf = false → u.faultOvf = false → t.SameHardware u

/-- The frame-size guarantee: as many pushes as `NEEDED n` answered, or more, make at least `n` more samples available; one
push fewer makes fewer (R93). -/
def Obligations.NeededPushesSuffice : Prop :=
  ∀ (s s' t : State) (n : Nat) (d : DataWord) (xs : List (Int × Int)), s.InRange → s.Lockstep → s.active = true →
    s.faultOvf = false → s.left.tick = 0 → exec (.needed n) s = .next s' → s'.rsp = some ⟨true, d, []⟩ →
    runCommands (pushes xs ++ [.endframe]) s' = .next t → t.faultOvf = false →
    (d.toNat ≤ xs.length → s.left.avail + n ≤ t.left.avail ∧ s.right.avail + n ≤ t.right.avail) ∧
    (1 ≤ n → xs.length + 1 = d.toNat → t.left.avail < s.left.avail + n ∧ t.right.avail < s.right.avail + n)

/-- Settling: once a sample has been pushed and only that sample since, every output sample from `W - 1` entries beyond its
position on is that sample exactly (R94). -/
def Obligations.ConstantInputSettles : Prop :=
  ∀ (s t u : State) (l r : Int) (n count m : Nat) (rsp : Response) (b : Beat), s.Inv → s.active = true →
    s.faultOvf = false → fitsS16 l = true → fitsS16 r = true →
    runCommands (pushes (List.replicate (n + 1) (l, r)) ++ [.endframe]) s = .next t → t.faultOvf = false →
    exec (.pop count) t = .next u → u.rsp = some rsp → rsp.beats[m]? = some b →
    s.left.avail + (s.left.tick * s.factor + s.left.offset) / 2 ^ 32 + (s.cfg.taps - 1) ≤ m → b = ⟨l, r⟩

/-- Nothing crosses from the left lane to the right: two runs that differ only in left data show the same right lane and
the same right samples (R99). -/
def Obligations.LeftDataNeverReachesTheRight : Prop :=
  ∀ (is js : List Instr) (s t s' t' : State), List.Forall₂ sameButLeft is js → s.rightView = t.rightView →
    runCommands is s = .next s' → runCommands js t = .next t' → s'.rightView = t'.rightView

/-! ### The host's macros -/

/-- `SESSION_START` and `SESSION_STOP` on an idle session: the first start succeeds, a second fails and touches nothing, the
stop succeeds, a second stop fails (R152, R153, T5). -/
def Obligations.SessionLifecycle : Prop :=
  ∀ (p : HostParams) (d : Bool) (rate : Nat) (h : Session), h.hw.active = false → h.engineUp = false → rate < 2 ^ 32 →
    ¬(rate = 0 ∨ h.hw.cfg.nativeRate * 32768 < rate ∨ rate * 32768 < h.hw.cfg.nativeRate) →
    ∃ h₁, h.start p true d rate = .next (h₁, true) ∧ h₁.hw.active = true ∧ h₁.engineUp = true ∧
      (∀ c d' rate', ∃ h₂, h₁.start p c d' rate' = .next (h₂, false) ∧ h₂.hw.SameHardware h₁.hw ∧ h₂.engineUp = true ∧
        h₂.log = h₁.log) ∧
      ∃ h₃, h₁.stop true = .next (h₃, true) ∧ h₃.hw.active = false ∧ h₃.engineUp = false ∧
        ∃ h₄, h₃.stop true = .next (h₄, false) ∧ h₄.log = h₃.log

/-- `SET_TONE` writes, in order and to both banks, the byte of each of the listed commands, 182 writes in all; no-op when
not Active; no register of the hardware changes (R154). That an address passing 0xFF wraps is the model's DESIGN CHOICE (log
entry 13). -/
def Obligations.SetToneWrites : Prop :=
  ∀ (p : HostParams) (tone : FmTone) (h : Session), ∃ h', h.setTone p tone = .next (h', ()) ∧ h'.hw.SameHardware h.hw ∧
    (h.hw.active = false → h'.log = h.log) ∧
    (h.hw.active = true → h'.log.length = h.log.length + 182 ∧
      h'.log = h.log ++ (toneWrites p tone).flatMap fun w =>
        [.write .low w.addr (w.orBits ||| BitVec.ofNat 8 ((packedNumber w.command).getD 0)),
         .write .high w.addr (w.orBits ||| BitVec.ofNat 8 ((packedNumber w.command).getD 0))])

/-- `NOTE_ON`: nothing is written when not Active or for a channel of 6 or more; otherwise the high/block byte, the low byte
and the key byte, in that order (R155, T6). That the pitch is one of twelve names and that an address passing 0xFF wraps are
the model's DESIGN CHOICE (log entry 13). -/
def Obligations.NoteOnWrites : Prop :=
  ∀ (p : HostParams) (ch octave : Byte) (pitch : PitchClass) (h : Session),
    ∃ h', h.noteOn p ch pitch octave = .next (h', ()) ∧ h'.hw.SameHardware h.hw ∧
      h'.log = if h.hw.active = false ∨ 6 ≤ ch.toNat then h.log else h.log ++
        [.write (if ch.toNat < 3 then .low else .high) (p.addrFnumHi + BitVec.ofNat 8 (ch.toNat % 3))
          (BitVec.ofNat 8 (octave.toNat % 8 * 8 + (h.hw.cfg.fnumTable.getD pitch.index.toNat 0).toNat / 256)),
         .write (if ch.toNat < 3 then .low else .high) (p.addrFnumLo + BitVec.ofNat 8 (ch.toNat % 3))
          (BitVec.ofNat 8 ((h.hw.cfg.fnumTable.getD pitch.index.toNat 0).toNat % 256)),
         .write .low 0x28 (h.hw.cfg.slotFlags ||| if ch.toNat < 3 then ch else h.hw.cfg.highBankFlag ||| (ch - 3))]

/-- `NOTE_OFF` writes the key byte alone, or nothing (R156). -/
def Obligations.NoteOffWrites : Prop :=
  ∀ (ch : Byte) (h : Session), ∃ h', h.noteOff ch = .next (h', ()) ∧ h'.hw.SameHardware h.hw ∧
    h'.log = if h.hw.active = false ∨ 6 ≤ ch.toNat then h.log else h.log ++
      [.write .low 0x28 (~~~h.hw.cfg.slotFlags &&& if ch.toNat < 3 then ch else h.hw.cfg.highBankFlag ||| (ch - 3))]

/-- `GENERATE count` between frames: unless the frame overflows, exactly `count` samples, and the counters are again at the
start of a frame; when the output rate is at most the native rate it never overflows (R157, T7). DEDUCED (log entry 14) from R83, R85 and R87:
R203 calls `count` at most `CAPACITY` sufficient for every rate, and that is not claimed here. -/
def Obligations.GenerateDeliversTheCount : Prop :=
  ∀ (engine : Nat → Int × Int) (count : Nat) (h : Session), h.hw.Inv → h.hw.active = true → h.hw.faultOvf = false →
    h.hw.left.tick = 0 → count ≤ 65536 → (∀ t, fitsS16 (engine t).1 = true ∧ fitsS16 (engine t).2 = true) →
    ∃ h' beats, h.generate engine count = .next (h', beats) ∧
      (h'.hw.faultOvf = false → beats.length = count ∧ h'.hw.left.tick = 0 ∧ h'.hw.right.tick = 0) ∧
      (h.hw.factor ≤ 2 ^ 32 → h'.hw.faultOvf = false)

/-- `GENERATE` with no session writes nothing and asks nothing of the engine (R157). -/
def Obligations.GenerateWithoutSessionWritesNothing : Prop :=
  ∀ (engine : Nat → Int × Int) (count : Nat) (h : Session), h.hw.active = false →
    ∃ h', h.generate engine count = .next (h', []) ∧ h'.hw.SameHardware h.hw ∧ h'.log = h.log
end

