-- ==== Sys2Proof/Laws/Config.lean ====
section
/-! SUPPORT. What may be assumed of a configuration, one lemma per constraint of rules R6 and R43. -/

namespace Sys2Proof

/-! The values of the fixed parameters as numbers (R6), for rewriting before linear arithmetic. -/

theorem Param.capacity_eq : Param.capacity = 65536 := rfl
theorem Param.timeBits_eq : Param.timeBits = 32 := rfl
theorem Param.phaseBits_eq : Param.phaseBits = 5 := rfl
theorem Param.phases_eq : Param.phases = 32 := rfl
theorem Param.deltaBits_eq : Param.deltaBits = 15 := rfl
theorem Param.unit_eq : Param.unit = 32768 := rfl
theorem Param.maxRatio_eq : Param.maxRatio = 32768 := rfl
theorem Param.fmChannels_eq : Param.fmChannels = 6 := rfl
theorem Param.channelsPerBank_eq : Param.channelsPerBank = 3 := rfl

theorem Config.lineLen_eq (cfg : Config) : cfg.lineLen = 65536 + cfg.taps := rfl

theorem Config.lineLen_pos (cfg : Config) : 0 < cfg.lineLen := by
  rw [Config.lineLen_eq]; omega

theorem Config.capacity_le_lineLen (cfg : Config) : Param.capacity ≤ cfg.lineLen := Nat.le_add_right _ _

theorem Config.linear_kernel : (Config.linear 1).kernel.length = Param.phases ∧
    ∀ row ∈ (Config.linear 1).kernel, Config.RowOk 2 row := by decide

theorem Config.linear_valid {rate : Nat} (h₁ : 1 ≤ rate) (h₂ : rate < 2 ^ 32) : (Config.linear rate).Valid :=
  ⟨⟨h₁, h₂⟩, ⟨by simp [Config.linear], by simp [Config.linear]⟩, Config.linear_kernel, rfl⟩

/-- The installed configuration is valid, whichever it is (R6, R43, R44). -/
theorem Config.installed_valid : Config.installed.Valid := by
  unfold Config.installed
  split
  · assumption
  · exact Config.linear_valid (by decide) (by decide)

theorem Config.Valid.rowOk {cfg : Config} (h : cfg.Valid) {p : Nat} (hp : p < Param.phases) :
    Config.RowOk cfg.taps (cfg.kernel.getD p []) := by
  obtain ⟨-, -, ⟨hlen, hrows⟩, -⟩ := h
  have hp' : p < cfg.kernel.length := by omega
  rw [List.getD_eq_getElem _ _ hp']
  exact hrows _ (List.getElem_mem hp')

end Sys2Proof
end

