-- ==== Sys2Proof/Laws/State.lean ====
section
/-! SUPPORT. One lemma per field of `State` per update, and per field of `Channel` per update, each true by unfolding the
update once. -/

namespace Sys2Proof.Machine

/-! ### State.respond -/

@[simp] theorem State.respond_cfg (s : State) (ok : Bool) (data : DataWord) (beats : List Beat) : (s.respond ok data beats).cfg = s.cfg := rfl
@[simp] theorem State.respond_active (s : State) (ok : Bool) (data : DataWord) (beats : List Beat) : (s.respond ok data beats).active = s.active := rfl
@[simp] theorem State.respond_factor (s : State) (ok : Bool) (data : DataWord) (beats : List Beat) : (s.respond ok data beats).factor = s.factor := rfl
@[simp] theorem State.respond_faultOvf (s : State) (ok : Bool) (data : DataWord) (beats : List Beat) : (s.respond ok data beats).faultOvf = s.faultOvf := rfl
@[simp] theorem State.respond_left (s : State) (ok : Bool) (data : DataWord) (beats : List Beat) : (s.respond ok data beats).left = s.left := rfl
@[simp] theorem State.respond_right (s : State) (ok : Bool) (data : DataWord) (beats : List Beat) : (s.respond ok data beats).right = s.right := rfl
@[simp] theorem State.respond_pending (s : State) (ok : Bool) (data : DataWord) (beats : List Beat) : (s.respond ok data beats).pending = s.pending := rfl
@[simp] theorem State.respond_rsp (s : State) (ok : Bool) (data : DataWord) (beats : List Beat) : (s.respond ok data beats).rsp = some ⟨ok, data, beats⟩ := rfl

/-! ### State.done -/

@[simp] theorem State.done_cfg (s : State) (data : DataWord) : (s.done data).cfg = s.cfg := rfl
@[simp] theorem State.done_active (s : State) (data : DataWord) : (s.done data).active = s.active := rfl
@[simp] theorem State.done_factor (s : State) (data : DataWord) : (s.done data).factor = s.factor := rfl
@[simp] theorem State.done_faultOvf (s : State) (data : DataWord) : (s.done data).faultOvf = s.faultOvf := rfl
@[simp] theorem State.done_left (s : State) (data : DataWord) : (s.done data).left = s.left := rfl
@[simp] theorem State.done_right (s : State) (data : DataWord) : (s.done data).right = s.right := rfl
@[simp] theorem State.done_pending (s : State) (data : DataWord) : (s.done data).pending = s.pending := rfl
@[simp] theorem State.done_rsp (s : State) (data : DataWord) : (s.done data).rsp = some ⟨true, data, []⟩ := rfl

/-! ### State.refuse -/

@[simp] theorem State.refuse_cfg (s : State) (reason : Reason) : (s.refuse reason).cfg = s.cfg := rfl
@[simp] theorem State.refuse_active (s : State) (reason : Reason) : (s.refuse reason).active = s.active := rfl
@[simp] theorem State.refuse_factor (s : State) (reason : Reason) : (s.refuse reason).factor = s.factor := rfl
@[simp] theorem State.refuse_faultOvf (s : State) (reason : Reason) : (s.refuse reason).faultOvf = s.faultOvf := rfl
@[simp] theorem State.refuse_left (s : State) (reason : Reason) : (s.refuse reason).left = s.left := rfl
@[simp] theorem State.refuse_right (s : State) (reason : Reason) : (s.refuse reason).right = s.right := rfl
@[simp] theorem State.refuse_pending (s : State) (reason : Reason) : (s.refuse reason).pending = s.pending := rfl
@[simp] theorem State.refuse_rsp (s : State) (reason : Reason) : (s.refuse reason).rsp = some ⟨false, reasonCode reason, []⟩ := rfl

/-! ### State.overflowFault -/

@[simp] theorem State.overflowFault_cfg (s : State) : s.overflowFault.cfg = s.cfg := rfl
@[simp] theorem State.overflowFault_active (s : State) : s.overflowFault.active = s.active := rfl
@[simp] theorem State.overflowFault_factor (s : State) : s.overflowFault.factor = s.factor := rfl
@[simp] theorem State.overflowFault_faultOvf (s : State) : s.overflowFault.faultOvf = true := rfl
@[simp] theorem State.overflowFault_left (s : State) : s.overflowFault.left = s.left := rfl
@[simp] theorem State.overflowFault_right (s : State) : s.overflowFault.right = s.right := rfl
@[simp] theorem State.overflowFault_pending (s : State) : s.overflowFault.pending = s.pending := rfl
@[simp] theorem State.overflowFault_rsp (s : State) : s.overflowFault.rsp = some ⟨false, 4, []⟩ := rfl

/-! ### State.powerOn -/

@[simp] theorem State.powerOn_cfg (s : State) : s.powerOn.cfg = s.cfg := rfl
@[simp] theorem State.powerOn_active (s : State) : s.powerOn.active = false := rfl
@[simp] theorem State.powerOn_factor (s : State) : s.powerOn.factor = 0 := rfl
@[simp] theorem State.powerOn_faultOvf (s : State) : s.powerOn.faultOvf = false := rfl
@[simp] theorem State.powerOn_left (s : State) : s.powerOn.left = Channel.reset := rfl
@[simp] theorem State.powerOn_right (s : State) : s.powerOn.right = Channel.reset := rfl
@[simp] theorem State.powerOn_pending (s : State) : s.powerOn.pending = s.pending := rfl
@[simp] theorem State.powerOn_rsp (s : State) : s.powerOn.rsp = s.rsp := rfl

/-! ### State.construct -/

@[simp] theorem State.construct_cfg (s : State) (factor : Nat) : (s.construct factor).cfg = s.cfg := rfl
@[simp] theorem State.construct_active (s : State) (factor : Nat) : (s.construct factor).active = true := rfl
@[simp] theorem State.construct_factor (s : State) (factor : Nat) : (s.construct factor).factor = factor := rfl
@[simp] theorem State.construct_faultOvf (s : State) (factor : Nat) : (s.construct factor).faultOvf = false := rfl
@[simp] theorem State.construct_left (s : State) (factor : Nat) : (s.construct factor).left = Channel.reset := rfl
@[simp] theorem State.construct_right (s : State) (factor : Nat) : (s.construct factor).right = Channel.reset := rfl
@[simp] theorem State.construct_pending (s : State) (factor : Nat) : (s.construct factor).pending = s.pending := rfl
@[simp] theorem State.construct_rsp (s : State) (factor : Nat) : (s.construct factor).rsp = s.rsp := rfl

/-! ### State.setChannels -/

@[simp] theorem State.setChannels_cfg (s : State) (left right : Channel) : (s.setChannels left right).cfg = s.cfg := rfl
@[simp] theorem State.setChannels_active (s : State) (left right : Channel) : (s.setChannels left right).active = s.active := rfl
@[simp] theorem State.setChannels_factor (s : State) (left right : Channel) : (s.setChannels left right).factor = s.factor := rfl
@[simp] theorem State.setChannels_faultOvf (s : State) (left right : Channel) : (s.setChannels left right).faultOvf = s.faultOvf := rfl
@[simp] theorem State.setChannels_left (s : State) (left right : Channel) : (s.setChannels left right).left = left := rfl
@[simp] theorem State.setChannels_right (s : State) (left right : Channel) : (s.setChannels left right).right = right := rfl
@[simp] theorem State.setChannels_pending (s : State) (left right : Channel) : (s.setChannels left right).pending = s.pending := rfl
@[simp] theorem State.setChannels_rsp (s : State) (left right : Channel) : (s.setChannels left right).rsp = s.rsp := rfl

/-! ### State.issue -/

@[simp] theorem State.issue_cfg (s : State) (w : CmdWord) : (s.issue w).cfg = s.cfg := rfl
@[simp] theorem State.issue_active (s : State) (w : CmdWord) : (s.issue w).active = s.active := rfl
@[simp] theorem State.issue_factor (s : State) (w : CmdWord) : (s.issue w).factor = s.factor := rfl
@[simp] theorem State.issue_faultOvf (s : State) (w : CmdWord) : (s.issue w).faultOvf = s.faultOvf := rfl
@[simp] theorem State.issue_left (s : State) (w : CmdWord) : (s.issue w).left = s.left := rfl
@[simp] theorem State.issue_right (s : State) (w : CmdWord) : (s.issue w).right = s.right := rfl
@[simp] theorem State.issue_pending (s : State) (w : CmdWord) : (s.issue w).pending = w :: s.pending := rfl
@[simp] theorem State.issue_rsp (s : State) (w : CmdWord) : (s.issue w).rsp = s.rsp := rfl

/-! ### State.rejectOpcode -/

@[simp] theorem State.rejectOpcode_cfg (s : State) : s.rejectOpcode.cfg = s.cfg := rfl
@[simp] theorem State.rejectOpcode_active (s : State) : s.rejectOpcode.active = s.active := rfl
@[simp] theorem State.rejectOpcode_factor (s : State) : s.rejectOpcode.factor = s.factor := rfl
@[simp] theorem State.rejectOpcode_faultOvf (s : State) : s.rejectOpcode.faultOvf = s.faultOvf := rfl
@[simp] theorem State.rejectOpcode_left (s : State) : s.rejectOpcode.left = s.left := rfl
@[simp] theorem State.rejectOpcode_right (s : State) : s.rejectOpcode.right = s.right := rfl
@[simp] theorem State.rejectOpcode_pending (s : State) : s.rejectOpcode.pending = s.pending := rfl
@[simp] theorem State.rejectOpcode_rsp (s : State) : s.rejectOpcode.rsp = some ⟨false, 1, []⟩ := rfl

/-! ### State.await -/

@[simp] theorem State.await_cfg (s : State) : s.await.cfg = s.cfg := rfl
@[simp] theorem State.await_active (s : State) : s.await.active = s.active := rfl
@[simp] theorem State.await_factor (s : State) : s.await.factor = s.factor := rfl
@[simp] theorem State.await_faultOvf (s : State) : s.await.faultOvf = s.faultOvf := rfl
@[simp] theorem State.await_left (s : State) : s.await.left = s.left := rfl
@[simp] theorem State.await_right (s : State) : s.await.right = s.right := rfl
@[simp] theorem State.await_pending (s : State) : s.await.pending = s.pending := rfl
@[simp] theorem State.await_rsp (s : State) : s.await.rsp = s.rsp := rfl

/-! ### Channel.lineWrite -/

@[simp] theorem Channel.lineWrite_prev (c : Channel) (len x : Nat) (v : Int) : (c.lineWrite len x v).prev = c.prev := rfl
@[simp] theorem Channel.lineWrite_tick (c : Channel) (len x : Nat) (v : Int) : (c.lineWrite len x v).tick = c.tick := rfl
@[simp] theorem Channel.lineWrite_offset (c : Channel) (len x : Nat) (v : Int) : (c.lineWrite len x v).offset = c.offset := rfl
@[simp] theorem Channel.lineWrite_avail (c : Channel) (len x : Nat) (v : Int) : (c.lineWrite len x v).avail = c.avail := rfl
@[simp] theorem Channel.lineWrite_rd (c : Channel) (len x : Nat) (v : Int) : (c.lineWrite len x v).rd = c.rd := rfl
@[simp] theorem Channel.lineWrite_acc (c : Channel) (len x : Nat) (v : Int) : (c.lineWrite len x v).acc = c.acc := rfl
@[simp] theorem Channel.lineWrite_ring (c : Channel) (len x : Nat) (v : Int) : (c.lineWrite len x v).ring = Memory.write c.ring (c.ringIndex len x) v := rfl

/-! ### Channel.endFrame -/

@[simp] theorem Channel.endFrame_prev (c : Channel) (factor : Nat) : (c.endFrame factor).prev = c.prev := rfl
@[simp] theorem Channel.endFrame_tick (c : Channel) (factor : Nat) : (c.endFrame factor).tick = 0 := rfl
@[simp] theorem Channel.endFrame_offset (c : Channel) (factor : Nat) : (c.endFrame factor).offset = fractionOf (c.position factor) := rfl
@[simp] theorem Channel.endFrame_avail (c : Channel) (factor : Nat) : (c.endFrame factor).avail = c.avail + c.added factor := rfl
@[simp] theorem Channel.endFrame_rd (c : Channel) (factor : Nat) : (c.endFrame factor).rd = c.rd := rfl
@[simp] theorem Channel.endFrame_acc (c : Channel) (factor : Nat) : (c.endFrame factor).acc = c.acc := rfl
@[simp] theorem Channel.endFrame_ring (c : Channel) (factor : Nat) : (c.endFrame factor).ring = c.ring := rfl

/-! ### Channel.reset -/

@[simp] theorem Channel.reset_prev : Channel.reset.prev = 0 := rfl
@[simp] theorem Channel.reset_tick : Channel.reset.tick = 0 := rfl
@[simp] theorem Channel.reset_offset : Channel.reset.offset = 0 := rfl
@[simp] theorem Channel.reset_avail : Channel.reset.avail = 0 := rfl
@[simp] theorem Channel.reset_rd : Channel.reset.rd = 0 := rfl
@[simp] theorem Channel.reset_acc : Channel.reset.acc = 0 := rfl
@[simp] theorem Channel.reset_ring : Channel.reset.ring = [] := rfl

end Sys2Proof.Machine
end

