-- ==== Sys2Proof/Laws/Memory.lean ====
section
/-! SUPPORT. The laws of a delta line's memory: a read after a write, the canonical form, and what every write keeps. -/

namespace Sys2Proof.Machine

@[simp] theorem Memory.read_nil (x : Nat) : Memory.read [] x = 0 := rfl

/-- A ring index below every listed one reads 0. -/
theorem Memory.read_of_below {m : Memory} {x : Nat} (h : ∀ cell ∈ m, x < cell.1) : Memory.read m x = 0 := by
  induction m with
  | nil => rfl
  | cons cell rest ih =>
    obtain ⟨a, v⟩ := cell
    have hx : x < a := h (a, v) (by simp)
    rw [Memory.read, if_neg (by omega)]
    exact ih fun c hc => h c (List.mem_cons_of_mem _ hc)

theorem Memory.wf_cons {a : Nat} {v : Int} {rest : Memory} :
    Memory.wf ((a, v) :: rest) = true ↔ v ≠ 0 ∧ (∀ cell ∈ rest, a < cell.1) ∧ Memory.wf rest = true := by
  simp [Memory.wf, and_assoc]

/-- The listed ring indices after a write are among those before and the one written. -/
theorem Memory.mem_write {m : Memory} {x : Nat} {v : Int} {cell : Nat × Int} (h : cell ∈ Memory.write m x v) :
    cell ∈ m ∨ cell.1 = x := by
  induction m with
  | nil =>
    simp only [Memory.write] at h
    split at h <;> simp_all
  | cons head rest ih =>
    obtain ⟨a, u⟩ := head
    simp only [Memory.write] at h
    split at h
    · split at h
      · exact .inl h
      · rcases List.mem_cons.1 h with rfl | h
        · exact .inr rfl
        · exact .inl h
    · split at h
      · split at h
        · exact .inl (List.mem_cons_of_mem _ h)
        · rcases List.mem_cons.1 h with rfl | h
          · exact .inr rfl
          · exact .inl (List.mem_cons_of_mem _ h)
      · rcases List.mem_cons.1 h with rfl | h
        · exact .inl (by simp)
        · exact (ih h).imp_left (List.mem_cons_of_mem _)

/-- Every write keeps the canonical form. -/
theorem Memory.wf_write {m : Memory} (h : Memory.wf m = true) (x : Nat) (v : Int) :
    Memory.wf (Memory.write m x v) = true := by
  induction m with
  | nil =>
    simp only [Memory.write]
    split <;> simp_all [Memory.wf]
  | cons head rest ih =>
    obtain ⟨a, u⟩ := head
    obtain ⟨hu, ha, hr⟩ := Memory.wf_cons.1 h
    simp only [Memory.write]
    split
    · next hxa =>
      split
      · exact h
      · next hv =>
        refine Memory.wf_cons.2 ⟨hv, fun c hc => ?_, h⟩
        rcases List.mem_cons.1 hc with rfl | hc
        · exact hxa
        · exact hxa.trans (ha c hc)
    · split
      · next hx =>
        subst hx
        split
        · exact hr
        · next hv => exact Memory.wf_cons.2 ⟨hv, ha, hr⟩
      · refine Memory.wf_cons.2 ⟨hu, fun c hc => ?_, ih hr⟩
        rcases Memory.mem_write hc with hc | hc
        · exact ha c hc
        · omega

/-- What a write does to a read, whole: the written entry reads the value, every other reads as before. -/
theorem Memory.read_write {m : Memory} (h : Memory.wf m = true) (x y : Nat) (v : Int) :
    Memory.read (Memory.write m x v) y = if y = x then v else Memory.read m y := by
  induction m with
  | nil =>
    by_cases hv : v = 0 <;> by_cases hy : y = x <;> simp [Memory.write, Memory.read, hv, hy]
  | cons head rest ih =>
    obtain ⟨a, u⟩ := head
    obtain ⟨-, ha, hr⟩ := Memory.wf_cons.1 h
    simp only [Memory.write]
    split
    · next hxa =>
      have h0 : ∀ cell ∈ (a, u) :: rest, x < cell.1 := fun c hc => by
        rcases List.mem_cons.1 hc with rfl | hc
        · exact hxa
        · exact hxa.trans (ha c hc)
      split
      · next hv =>
        split
        · next hy => subst hy; rw [Memory.read_of_below h0, hv]
        · rfl
      · by_cases hy : y = x <;> simp [Memory.read, hy]
    · split
      · next hx =>
        subst hx
        split
        · next hv =>
          split
          · next hy => subst hy; rw [Memory.read_of_below ha, hv]
          · next hy => rw [Memory.read, if_neg hy]
        · by_cases hy : y = x <;> simp [Memory.read, hy]
      · next hxa hx =>
        rw [Memory.read, ih hr]
        by_cases hy : y = a
        · have : y ≠ x := by omega
          simp [Memory.read, hy, Ne.symm hx]
        · simp [Memory.read, hy]

/-- A read after a write to the same entry. -/
theorem Memory.read_write_same {m : Memory} (h : Memory.wf m = true) (x : Nat) (v : Int) :
    Memory.read (Memory.write m x v) x = v := by
  rw [Memory.read_write h, if_pos rfl]

/-- A write leaves every other entry alone, in canonical form or not. -/
theorem Memory.read_write_other (m : Memory) {x y : Nat} (hxy : y ≠ x) (v : Int) :
    Memory.read (Memory.write m x v) y = Memory.read m y := by
  induction m with
  | nil => by_cases hv : v = 0 <;> simp [Memory.write, Memory.read, hv, hxy]
  | cons head rest ih =>
    obtain ⟨a, u⟩ := head
    simp only [Memory.write]
    split
    · split
      · rfl
      · rw [Memory.read, if_neg hxy]
    · split
      · next hx =>
        subst hx
        split
        · rw [Memory.read, if_neg hxy]
        · simp [Memory.read, hxy]
      · simp only [Memory.read, ih]

end Sys2Proof.Machine
end

