-- ==== Sys2Proof/Laws/Line.lean ====
section
/-! SUPPORT. What the operations on a delta line do, said once for each: `lineWrite`, the tap loop `addTaps`, `push`,
`endFrame`, the loop `drain`, `pop` (rules R41, R83, R85, R90). -/

namespace Sys2Proof.Machine

/-- A line in canonical form that lists only existing entries. -/
abbrev Channel.RingOk (len : Nat) (c : Channel) : Prop :=
  Memory.wf c.ring = true ∧ ∀ cell ∈ c.ring, cell.1 < len

/-! ### Addressing -/

/-- The ring mapping is one to one on the logical indices of a line (R41). -/
theorem Channel.ringIndex_inj {len : Nat} {c : Channel} {x y : Nat} (hx : x < len) (hy : y < len)
    (h : c.ringIndex len x = c.ringIndex len y) : x = y := by
  have h' : Nat.ModEq len x y := Nat.ModEq.add_left_cancel' c.rd h
  rwa [Nat.ModEq, Nat.mod_eq_of_lt hx, Nat.mod_eq_of_lt hy] at h'

theorem Channel.ringIndex_lt {len : Nat} (c : Channel) (x : Nat) (h : 0 < len) : c.ringIndex len x < len :=
  Nat.mod_lt _ h

/-- A line read sees only the ring and the read cursor. -/
theorem Channel.lineRead_congr {len : Nat} {c c' : Channel} (hr : c'.ring = c.ring) (hd : c'.rd = c.rd) (x : Nat) :
    c'.lineRead len x = c.lineRead len x := by
  simp only [Channel.lineRead, Channel.ringIndex, hr, hd]

theorem Channel.lineRead_reset (len x : Nat) : Channel.reset.lineRead len x = 0 := rfl

/-! ### lineWrite -/

theorem Channel.lineRead_lineWrite_same {len : Nat} {c : Channel} (h : Memory.wf c.ring = true) (x : Nat) (v : Int) :
    (c.lineWrite len x v).lineRead len x = v :=
  Memory.read_write_same h _ v

theorem Channel.lineRead_lineWrite_other {len : Nat} (c : Channel) {x y : Nat} (hx : x < len) (hy : y < len) (hxy : y ≠ x)
    (v : Int) : (c.lineWrite len x v).lineRead len y = c.lineRead len y :=
  Memory.read_write_other _ (fun h => hxy (Channel.ringIndex_inj (c := c) hy hx h)) v

theorem Channel.lineWrite_ringOk {len : Nat} {c : Channel} (hlen : 0 < len) (h : c.RingOk len) (x : Nat) (v : Int) :
    (c.lineWrite len x v).RingOk len := by
  refine ⟨Memory.wf_write h.1 _ v, fun cell hc => ?_⟩
  rcases Memory.mem_write hc with hc | hc
  · exact h.2 cell hc
  · rw [hc]; exact c.ringIndex_lt x hlen

/-! ### addTaps -/

section
variable (len : Nat) (d : Int)

@[simp] theorem Channel.addTaps_prev (ks : List Int) : ∀ x c, (Channel.addTaps len d x ks c).prev = c.prev := by
  induction ks <;> simp_all [Channel.addTaps]
@[simp] theorem Channel.addTaps_tick (ks : List Int) : ∀ x c, (Channel.addTaps len d x ks c).tick = c.tick := by
  induction ks <;> simp_all [Channel.addTaps]
@[simp] theorem Channel.addTaps_offset (ks : List Int) : ∀ x c, (Channel.addTaps len d x ks c).offset = c.offset := by
  induction ks <;> simp_all [Channel.addTaps]
@[simp] theorem Channel.addTaps_avail (ks : List Int) : ∀ x c, (Channel.addTaps len d x ks c).avail = c.avail := by
  induction ks <;> simp_all [Channel.addTaps]
@[simp] theorem Channel.addTaps_rd (ks : List Int) : ∀ x c, (Channel.addTaps len d x ks c).rd = c.rd := by
  induction ks <;> simp_all [Channel.addTaps]
@[simp] theorem Channel.addTaps_acc (ks : List Int) : ∀ x c, (Channel.addTaps len d x ks c).acc = c.acc := by
  induction ks <;> simp_all [Channel.addTaps]

theorem Channel.addTaps_ringOk (hlen : 0 < len) (ks : List Int) :
    ∀ x c, c.RingOk len → (Channel.addTaps len d x ks c).RingOk len := by
  induction ks with
  | nil => exact fun _ _ h => h
  | cons k ks ih => exact fun x c h => ih _ _ (Channel.lineWrite_ringOk hlen h _ _)

/-- Entries outside the taps' range are left alone, whatever form the line is in. -/
theorem Channel.lineRead_addTaps_other (ks : List Int) :
    ∀ x c y, x + ks.length ≤ len → y < len → (y < x ∨ x + ks.length ≤ y) →
      (Channel.addTaps len d x ks c).lineRead len y = c.lineRead len y := by
  induction ks with
  | nil => exact fun _ _ _ _ _ _ => rfl
  | cons k ks ih =>
    intro x c y hx hy hxy
    simp only [List.length_cons] at hx hxy
    rw [Channel.addTaps, ih _ _ _ (by omega) hy (by omega),
      Channel.lineRead_lineWrite_other c (by omega) hy (by omega)]

/-- Each tap's entry grows by its coefficient times the delta (R83). -/
theorem Channel.lineRead_addTaps_tap (ks : List Int) :
    ∀ x c j, Memory.wf c.ring = true → x + ks.length ≤ len → j < ks.length →
      (Channel.addTaps len d x ks c).lineRead len (x + j) = c.lineRead len (x + j) + ks.getD j 0 * d := by
  induction ks with
  | nil => exact fun _ _ _ _ _ h => absurd h (by simp)
  | cons k ks ih =>
    intro x c j hwf hx hj
    simp only [List.length_cons] at hx hj
    have hwf' : Memory.wf (c.lineWrite len x (c.lineRead len x + k * d)).ring = true := Memory.wf_write hwf _ _
    cases j with
    | zero =>
      rw [Channel.addTaps, Channel.lineRead_addTaps_other len d ks _ _ _ (by omega) (by omega) (by omega), Nat.add_zero,
        Channel.lineRead_lineWrite_same hwf, List.getD_cons_zero]
    | succ j =>
      have hxj : x + (j + 1) = x + 1 + j := by omega
      rw [Channel.addTaps, hxj, ih _ _ _ hwf' (by omega) (by omega),
        Channel.lineRead_lineWrite_other c (by omega) (by omega) (by omega), List.getD_cons_succ]

end

/-! ### push -/

theorem kernelRow_length (cfg : Config) (p : Nat) : (kernelRow cfg p).length = cfg.taps := by
  simp [kernelRow]

theorem kernelRow_getD {cfg : Config} {p j : Nat} (hj : j < cfg.taps) : (kernelRow cfg p).getD j 0 = kernelAt cfg p j := by
  rw [List.getD_eq_getElem _ _ (by simpa [kernelRow] using hj)]
  simp [kernelRow]

@[simp] theorem Channel.push_prev (cfg : Config) (f : Nat) (v : Int) (c : Channel) : (c.push cfg f v).prev = v := rfl
@[simp] theorem Channel.push_tick (cfg : Config) (f : Nat) (v : Int) (c : Channel) :
    (c.push cfg f v).tick = c.tick + 1 := rfl
@[simp] theorem Channel.push_offset (cfg : Config) (f : Nat) (v : Int) (c : Channel) :
    (c.push cfg f v).offset = c.offset := by simp [Channel.push]
@[simp] theorem Channel.push_avail (cfg : Config) (f : Nat) (v : Int) (c : Channel) :
    (c.push cfg f v).avail = c.avail := by simp [Channel.push]
@[simp] theorem Channel.push_rd (cfg : Config) (f : Nat) (v : Int) (c : Channel) :
    (c.push cfg f v).rd = c.rd := by simp [Channel.push]
@[simp] theorem Channel.push_acc (cfg : Config) (f : Nat) (v : Int) (c : Channel) :
    (c.push cfg f v).acc = c.acc := by simp [Channel.push]

theorem Channel.push_ringOk {cfg : Config} {f : Nat} {v : Int} {c : Channel} (h : c.RingOk cfg.lineLen) :
    (c.push cfg f v).RingOk cfg.lineLen :=
  Channel.addTaps_ringOk _ _ cfg.lineLen_pos _ _ _ h

/-- The line after an accepted push: tap `j` adds `KERNEL[p][j] * d` at logical index `avail + i + j` (R83). -/
theorem Channel.lineRead_push_tap {cfg : Config} {f : Nat} {v : Int} {c : Channel} {j : Nat}
    (hwf : Memory.wf c.ring = true) (hi : c.pushIndex f ≤ Param.capacity) (hj : j < cfg.taps) :
    (c.push cfg f v).lineRead cfg.lineLen (c.pushIndex f + j) =
      c.lineRead cfg.lineLen (c.pushIndex f + j) + kernelAt cfg (phaseOf (c.position f)) j * (v - c.prev) := by
  rw [← kernelRow_getD hj]
  exact Channel.lineRead_addTaps_tap _ _ _ _ _ _ hwf
    (by rw [kernelRow_length, Config.lineLen]; omega) (by rwa [kernelRow_length])

/-- Every other entry of the line is as before (R31, R83). -/
theorem Channel.lineRead_push_other {cfg : Config} {f : Nat} {v : Int} {c : Channel} {x : Nat}
    (hi : c.pushIndex f ≤ Param.capacity) (hx : x < cfg.lineLen)
    (h : x < c.pushIndex f ∨ c.pushIndex f + cfg.taps ≤ x) :
    (c.push cfg f v).lineRead cfg.lineLen x = c.lineRead cfg.lineLen x :=
  Channel.lineRead_addTaps_other _ _ _ _ _ _ (by rw [kernelRow_length, Config.lineLen]; omega) hx
    (by rwa [kernelRow_length])

/-! ### drain and pop -/

section
variable (len : Nat)

@[simp] theorem Channel.drain_prev (k : Nat) : ∀ m c, (Channel.drain len k m c).2.prev = c.prev := by
  induction k <;> simp_all [Channel.drain]
@[simp] theorem Channel.drain_tick (k : Nat) : ∀ m c, (Channel.drain len k m c).2.tick = c.tick := by
  induction k <;> simp_all [Channel.drain]
@[simp] theorem Channel.drain_offset (k : Nat) : ∀ m c, (Channel.drain len k m c).2.offset = c.offset := by
  induction k <;> simp_all [Channel.drain]
@[simp] theorem Channel.drain_avail (k : Nat) : ∀ m c, (Channel.drain len k m c).2.avail = c.avail := by
  induction k <;> simp_all [Channel.drain]
@[simp] theorem Channel.drain_rd (k : Nat) : ∀ m c, (Channel.drain len k m c).2.rd = c.rd := by
  induction k <;> simp_all [Channel.drain]
@[simp] theorem Channel.drain_length (k : Nat) : ∀ m c, (Channel.drain len k m c).1.length = k := by
  induction k <;> simp_all [Channel.drain]

theorem Channel.drain_ringOk (hlen : 0 < len) (k : Nat) :
    ∀ m c, c.RingOk len → (Channel.drain len k m c).2.RingOk len := by
  induction k with
  | zero => exact fun _ _ h => h
  | succ k ih =>
    exact fun m c h => ih _ _ (Channel.lineWrite_ringOk (c := { c with acc := _ }) hlen h _ _)

/-- Entries outside the drained range are left alone, whatever form the line is in. -/
theorem Channel.lineRead_drain_other (k : Nat) :
    ∀ m c y, m + k ≤ len → y < len → (y < m ∨ m + k ≤ y) →
      (Channel.drain len k m c).2.lineRead len y = c.lineRead len y := by
  induction k with
  | zero => exact fun _ _ _ _ _ _ => rfl
  | succ k ih =>
    intro m c y hm hy h
    rw [Channel.drain, ih _ _ _ (by omega) hy (by omega),
      Channel.lineRead_lineWrite_other { c with acc := _ } (by omega) hy (by omega)]
    rfl

/-- Every drained entry is 0 afterwards (R90). -/
theorem Channel.lineRead_drain_drained (k : Nat) :
    ∀ m c y, Memory.wf c.ring = true → m + k ≤ len → m ≤ y → y < m + k →
      (Channel.drain len k m c).2.lineRead len y = 0 := by
  induction k with
  | zero => intro m c y _ _ h1 h2; omega
  | succ k ih =>
    intro m c y hwf hm h1 h2
    rw [Channel.drain]
    rcases Nat.eq_or_lt_of_le h1 with rfl | h1
    · rw [Channel.lineRead_drain_other len k _ _ _ (by omega) (by omega) (by omega)]
      exact Channel.lineRead_lineWrite_same hwf _ _
    · exact ih _ _ _ (Memory.wf_write hwf _ _) (by omega) (by omega) (by omega)

/-- The integrator after a drain has taken in the drained entries (R90). -/
theorem Channel.drain_acc (k : Nat) :
    ∀ m c, m + k ≤ len →
      (Channel.drain len k m c).2.acc = c.acc + ((List.range k).map fun t => c.lineRead len (m + t)).sum := by
  induction k with
  | zero => simp [Channel.drain]
  | succ k ih =>
    intro m c hm
    rw [Channel.drain, ih _ _ (by omega), List.range_succ_eq_map, List.map_cons, List.map_map, List.sum_cons]
    have : (List.range k).map (fun t => ({ c with acc := c.acc + c.lineRead len m }.lineWrite len m 0).lineRead len (m + 1 + t)) =
        (List.range k).map ((fun t => c.lineRead len (m + t)) ∘ Nat.succ) := by
      refine List.map_congr_left fun t ht => ?_
      have ht := List.mem_range.1 ht
      rw [Channel.lineRead_lineWrite_other { c with acc := _ } (by omega) (by omega) (by omega)]
      exact congrArg _ (by omega)
    rw [this, Channel.lineWrite_acc, Nat.add_zero]
    ring

/-- The samples drained: the integrator after each entry, scaled and clamped (R90). -/
theorem Channel.drain_samples (k : Nat) :
    ∀ m c, m + k ≤ len →
      (Channel.drain len k m c).1 =
        (List.range k).map fun t =>
          outputSample (c.acc + ((List.range (t + 1)).map fun u => c.lineRead len (m + u)).sum) := by
  induction k with
  | zero => simp [Channel.drain]
  | succ k ih =>
    intro m c hm
    rw [Channel.drain, ih _ _ (by omega), List.range_succ_eq_map, List.map_cons, List.map_map]
    refine congrArg₂ List.cons (by simp) (List.map_congr_left fun t ht => ?_)
    have ht := List.mem_range.1 ht
    have hsum : ((List.range (t + 1)).map fun u =>
          ({ c with acc := c.acc + c.lineRead len m }.lineWrite len m 0).lineRead len (m + 1 + u)) =
        (List.range (t + 1)).map ((fun u => c.lineRead len (m + u)) ∘ Nat.succ) := by
      refine List.map_congr_left fun u hu => ?_
      have hu := List.mem_range.1 hu
      rw [Channel.lineRead_lineWrite_other { c with acc := _ } (by omega) (by omega) (by omega)]
      exact congrArg _ (by omega)
    simp only [Function.comp_apply]
    rw [hsum, List.range_succ_eq_map (n := t.succ), List.map_cons, List.sum_cons, List.map_map, Channel.lineWrite_acc]
    simp only [Nat.add_zero, add_assoc]

end

@[simp] theorem Channel.pop_prev (len n : Nat) (c : Channel) : (c.pop len n).2.prev = c.prev := by simp [Channel.pop]
@[simp] theorem Channel.pop_tick (len n : Nat) (c : Channel) : (c.pop len n).2.tick = c.tick := by simp [Channel.pop]
@[simp] theorem Channel.pop_offset (len n : Nat) (c : Channel) : (c.pop len n).2.offset = c.offset := by
  simp [Channel.pop]
@[simp] theorem Channel.pop_avail (len n : Nat) (c : Channel) : (c.pop len n).2.avail = c.avail - c.popCount n := rfl
@[simp] theorem Channel.pop_rd (len n : Nat) (c : Channel) : (c.pop len n).2.rd = (c.rd + c.popCount n) % len := rfl

theorem Channel.popCount_le (n : Nat) (c : Channel) : c.popCount n ≤ c.avail := Nat.min_le_right _ _

theorem Channel.pop_ringOk {len : Nat} (hlen : 0 < len) (n : Nat) {c : Channel} (h : c.RingOk len) :
    (c.pop len n).2.RingOk len :=
  Channel.drain_ringOk len hlen _ _ _ h

/-- Logical index `x` after a pop of `k` is logical index `x + k` before it, round the ring. -/
theorem Channel.ringIndex_pop (len n : Nat) (c : Channel) (x : Nat) :
    (c.pop len n).2.ringIndex len x = c.ringIndex len (x + c.popCount n) := by
  simp only [Channel.ringIndex, Channel.pop_rd, Nat.mod_add_mod]
  exact congrArg (· % len) (by omega)

/-- A pop of `k` renumbers every remaining entry down by `k`, and the entries that re-enter at the top are 0 (R41, R42). -/
theorem Channel.lineRead_pop {len n : Nat} {c : Channel} (hwf : Memory.wf c.ring = true) (hk : c.popCount n ≤ len) {x : Nat}
    (hx : x < len) : (c.pop len n).2.lineRead len x =
      if x + c.popCount n < len then c.lineRead len (x + c.popCount n) else 0 := by
  have hring : (c.pop len n).2.lineRead len x =
      Memory.read (Channel.drain len (c.popCount n) 0 c).2.ring (c.ringIndex len (x + c.popCount n)) := by
    rw [Channel.lineRead, Channel.ringIndex_pop]; rfl
  have hd : ∀ y, Memory.read (Channel.drain len (c.popCount n) 0 c).2.ring (c.ringIndex len y) =
      (Channel.drain len (c.popCount n) 0 c).2.lineRead len y := fun y => by
    simp only [Channel.lineRead, Channel.ringIndex, Channel.drain_rd]
  rw [hring]
  split
  · next h => rw [hd, Channel.lineRead_drain_other len _ _ _ _ (by omega) h (by omega)]
  · next h =>
    have hw : c.ringIndex len (x + c.popCount n) = c.ringIndex len (x + c.popCount n - len) := by
      have : c.rd + (x + c.popCount n) = c.rd + (x + c.popCount n - len) + len := by omega
      simp only [Channel.ringIndex, this, Nat.add_mod_right]
    rw [hw, hd, Channel.lineRead_drain_drained len _ _ _ _ hwf (by omega) (by omega) (by omega)]

/-- The integrator after a pop (R90). -/
theorem Channel.pop_acc {len n : Nat} {c : Channel} (hk : c.popCount n ≤ len) :
    (c.pop len n).2.acc = c.partialSum len (c.popCount n) := by
  have := Channel.drain_acc len (c.popCount n) 0 c (by omega)
  simpa [Channel.pop, Channel.partialSum] using this

/-- The samples popped, oldest first (R90). -/
theorem Channel.pop_samples {len n : Nat} {c : Channel} (hk : c.popCount n ≤ len) :
    (c.pop len n).1 = (List.range (c.popCount n)).map fun t => outputSample (c.partialSum len (t + 1)) := by
  have := Channel.drain_samples len (c.popCount n) 0 c (by omega)
  simpa [Channel.pop, Channel.partialSum] using this

/-! ### partialSum -/

@[simp] theorem Channel.partialSum_zero (len : Nat) (c : Channel) : c.partialSum len 0 = c.acc := by
  simp [Channel.partialSum]

theorem Channel.partialSum_succ (len : Nat) (c : Channel) (k : Nat) :
    c.partialSum len (k + 1) = c.partialSum len k + c.lineRead len k := by
  simp [Channel.partialSum, List.range_succ, add_assoc]

end Sys2Proof.Machine
end

