-- ==== Sys2Proof/Laws/Ops.lean ====
section
/-! SUPPORT. What the port and the pre-check do (rules R71, R82), and one inversion lemma for all commands: everything that
carrying out a command can make of a state. -/

namespace Sys2Proof.Machine

/-! ### The pre-check -/

theorem State.preCheck_inactive {s normal : State} (h : s.active = false) : s.preCheck normal = s.done 0 := by
  simp [State.preCheck, h]

theorem State.preCheck_faulted {s normal : State} (h : s.active = true) (h' : s.faultOvf = true) :
    s.preCheck normal = s.refuse .faulted := by
  simp [State.preCheck, h, h']

theorem State.preCheck_normal {s normal : State} (h : s.active = true) (h' : s.faultOvf = false) :
    s.preCheck normal = normal := by
  simp [State.preCheck, h, h']

/-- The three ways through the pre-check (R82). -/
theorem State.preCheck_cases (s normal : State) :
    (s.active = false ∧ s.preCheck normal = s.done 0) ∨
    (s.active = true ∧ s.faultOvf = true ∧ s.preCheck normal = s.refuse .faulted) ∨
    (s.active = true ∧ s.faultOvf = false ∧ s.preCheck normal = normal) := by
  cases ha : s.active
  · exact .inl ⟨rfl, State.preCheck_inactive ha⟩
  · cases hf : s.faultOvf
    · exact .inr (.inr ⟨rfl, rfl, State.preCheck_normal ha hf⟩)
    · exact .inr (.inl ⟨rfl, rfl, State.preCheck_faulted ha hf⟩)

/-! ### The port -/

@[simp] theorem State.takeCommand_issue (s : State) (w : CmdWord) : (s.issue w).takeCommand = some (w, s) := rfl

theorem State.takeCommand_nil {s : State} (h : s.pending = []) : s.takeCommand = none := by
  simp [State.takeCommand, h]

theorem State.takeCommand_cons {s : State} {w : CmdWord} {rest : List CmdWord} (h : s.pending = w :: rest) :
    s.takeCommand = some (w, { s with pending := rest }) := by
  simp [State.takeCommand, h]

/-! ### What a command can do -/

/-- Everything that carrying out command `i` in state `s` can lead to. -/
inductive Effect (i : Instr) (s : State) : State → Prop where
  /-- Only an answer: a normal answer, a no-op or a refusal. -/
  | answered (r : Response) : Effect i s { s with rsp := some r }
  /-- The overflow fault of a push or of the end of a frame (R182). -/
  | overflowed (hi : i = .endframe ∨ ∃ l r, i = .push l r) (ha : s.active = true) (hf : s.faultOvf = false) :
      Effect i s s.overflowFault
  /-- `START` constructs the buffer (R80). -/
  | started (rate : Nat) (hi : i = .start rate) (ha : s.active = false) (hr : rateUnusable s.cfg.nativeRate rate = false) :
      Effect i s ((s.construct (ceilDiv (rate * 2 ^ Param.timeBits) s.cfg.nativeRate)).done (boolWord true))
  /-- `STOP` releases it (R81). -/
  | stopped (hi : i = .stop) (ha : s.active = true) : Effect i s (s.powerOn.done (boolWord true))
  /-- An accepted push (R84). -/
  | pushed (l r : Int) (hi : i = .push l r) (ha : s.active = true) (hf : s.faultOvf = false)
      (hl : s.left.pushIndex s.factor ≤ Param.capacity) (hr : s.right.pushIndex s.factor ≤ Param.capacity) :
      Effect i s ((s.setChannels (s.left.push s.cfg s.factor l) (s.right.push s.cfg s.factor r)).done 0)
  /-- An accepted end of a frame (R86). -/
  | ended (hi : i = .endframe) (ha : s.active = true) (hf : s.faultOvf = false)
      (hl : s.left.avail + s.left.added s.factor ≤ Param.capacity)
      (hr : s.right.avail + s.right.added s.factor ≤ Param.capacity) :
      Effect i s ((s.setChannels (s.left.endFrame s.factor) (s.right.endFrame s.factor)).done
        (BitVec.ofNat 32 (min (s.left.added s.factor) (s.right.added s.factor))))
  /-- A pop (R91). -/
  | popped (n : Nat) (hi : i = .pop n) (ha : s.active = true) (hf : s.faultOvf = false) :
      Effect i s ((s.setChannels (s.left.pop s.cfg.lineLen n).2 (s.right.pop s.cfg.lineLen n).2).respond true
        (BitVec.ofNat 32 (min (s.left.popCount n) (s.right.popCount n)))
        (List.zipWith Beat.mk (s.left.pop s.cfg.lineLen n).1 (s.right.pop s.cfg.lineLen n).1))

theorem Effect.done (i : Instr) (s : State) (d : DataWord) : Effect i s (s.done d) := .answered _
theorem Effect.refuse (i : Instr) (s : State) (reason : Reason) : Effect i s (s.refuse reason) := .answered _

/-- A data command's effect is the pre-check's answer or the effect of its normal part. -/
theorem Effect.preCheck {i : Instr} {s normal : State}
    (h : s.active = true → s.faultOvf = false → Effect i s normal) : Effect i s (s.preCheck normal) := by
  rcases s.preCheck_cases normal with ⟨-, he⟩ | ⟨-, -, he⟩ | ⟨ha, hf, he⟩ <;> rw [he]
  · exact Effect.done ..
  · exact Effect.refuse ..
  · exact h ha hf

theorem execStart_effect {rate : Nat} {s t : State} (h : execStart rate s = .next t) : Effect (.start rate) s t := by
  simp only [execStart, Host.Outcome.next.injEq] at h
  subst h
  split
  · exact Effect.done ..
  · next ha =>
    split
    · exact Effect.refuse ..
    · next hr => exact .started rate rfl (by simpa using ha) (by simpa using hr)

theorem execStop_effect {s t : State} (h : execStop s = .next t) : Effect .stop s t := by
  simp only [execStop, Host.Outcome.next.injEq] at h
  subst h
  split
  · next ha => exact .stopped rfl ha
  · exact Effect.done ..

theorem execPush_effect {l r : Int} {s t : State} (h : execPush l r s = .next t) : Effect (.push l r) s t := by
  simp only [execPush, Host.Outcome.next.injEq] at h
  subst h
  refine Effect.preCheck fun ha hf => ?_
  split
  · exact .overflowed (.inr ⟨l, r, rfl⟩) ha hf
  · next ho =>
    simp only [Channel.pushOverflows, Bool.or_eq_true, decide_eq_true_eq, not_or, Nat.not_lt] at ho
    exact .pushed l r rfl ha hf ho.1 ho.2

theorem execEndframe_effect {s t : State} (h : execEndframe s = .next t) : Effect .endframe s t := by
  simp only [execEndframe, Host.Outcome.next.injEq] at h
  subst h
  refine Effect.preCheck fun ha hf => ?_
  split
  · exact .overflowed (.inl rfl) ha hf
  · next ho =>
    simp only [Channel.frameOverflows, Bool.or_eq_true, decide_eq_true_eq, not_or, Nat.not_lt] at ho
    exact .ended rfl ha hf ho.1 ho.2

theorem execNeeded_effect {n : Nat} {s t : State} (h : execNeeded n s = .next t) : Effect (.needed n) s t := by
  simp only [execNeeded, Host.Outcome.next.injEq] at h
  subst h
  refine Effect.preCheck fun _ _ => ?_
  split
  · exact Effect.refuse ..
  · exact Effect.done ..

theorem execAvail_effect {s t : State} (h : execAvail s = .next t) : Effect .avail s t := by
  simp only [execAvail, Host.Outcome.next.injEq] at h
  subst h
  exact Effect.preCheck fun _ _ => Effect.done ..

theorem execPop_effect {n : Nat} {s t : State} (h : execPop n s = .next t) : Effect (.pop n) s t := by
  simp only [execPop, Host.Outcome.next.injEq] at h
  subst h
  exact Effect.preCheck fun ha hf => .popped n rfl ha hf

theorem execStatus_effect {s t : State} (h : execStatus s = .next t) : Effect .status s t := by
  simp only [execStatus, Host.Outcome.next.injEq] at h
  subst h
  exact Effect.done ..

/-- Every command's next state is one of the effects above: cite this instead of unfolding `exec`. -/
theorem exec_effect {i : Instr} {s t : State} (h : exec i s = .next t) : Effect i s t := by
  cases i
  case start => exact execStart_effect h
  case stop => exact execStop_effect h
  case push => exact execPush_effect h
  case endframe => exact execEndframe_effect h
  case needed => exact execNeeded_effect h
  case avail => exact execAvail_effect h
  case pop => exact execPop_effect h
  case status => exact execStatus_effect h
  all_goals
    simp only [exec, execFbAl, execLfoFreq, execAmsPms, execDtMl, execTl, execKsAr, execAmDr, execSr, execSlRr, execSsgEg,
      execNoteFnum, execKeyOn, execKeyOff, Host.Outcome.next.injEq] at h
    subst h
    first
      | exact Effect.done ..
      | (split
         · first | exact Effect.refuse .. | exact Effect.done ..
         · exact Effect.done ..)

/-- What a step can do: nothing issued and nothing changed, an illegal word answered, or the effect of the decoded
command in the state with the word taken. -/
theorem step_cases {s t : State} (h : step s = .next t) :
    (s.pending = [] ∧ t = s) ∨
    (∃ w rest, s.pending = w :: rest ∧ (∃ op, decode w = .illegalOpcode op) ∧
      t = ({ s with pending := rest } : State).rejectOpcode) ∨
    (∃ w rest i, s.pending = w :: rest ∧ decode w = .command i ∧ exec i { s with pending := rest } = .next t) := by
  cases hp : s.pending with
  | nil =>
    rw [step, State.takeCommand_nil hp] at h
    exact .inl ⟨rfl, (Host.Outcome.next.inj h).symm⟩
  | cons w rest =>
    rw [step, State.takeCommand_cons hp] at h
    cases hd : decode w with
    | command i =>
      simp only [hd] at h
      exact .inr (.inr ⟨w, rest, i, rfl, hd, h⟩)
    | illegalOpcode op =>
      simp only [hd, Host.Outcome.next.injEq] at h
      exact .inr (.inl ⟨w, rest, rfl, ⟨op, hd⟩, h.symm⟩)

end Sys2Proof.Machine
end

