-- ==== Sys2Proof/Laws/PerInstr.lean ====
section
/-! SUPPORT. Per-instruction families. `OpcodeField`: the opcode field of a command's word is the command's opcode (rules
R60, R63). -/

namespace Sys2Proof.Laws

theorem opField_commandWord (op : Byte) (arg : DataWord) : opField (commandWord op arg) = op := by
  refine BitVec.eq_of_getLsbD_eq fun i hi => ?_
  have h : 32 + i < 40 := by omega
  simp [opField, commandWord, hi, h]

/-- The opcode field of the word of `i` is `i`'s opcode. -/
def OpcodeField.Statement (i : Instr) : Prop := opField (encode i) = i.opcode

theorem OpcodeField.start (n : Nat) : OpcodeField.Statement (.start n) := opField_commandWord _ _
theorem OpcodeField.stop : OpcodeField.Statement .stop := opField_commandWord _ _
theorem OpcodeField.push (l r : Int) : OpcodeField.Statement (.push l r) := opField_commandWord _ _
theorem OpcodeField.endframe : OpcodeField.Statement .endframe := opField_commandWord _ _
theorem OpcodeField.needed (n : Nat) : OpcodeField.Statement (.needed n) := opField_commandWord _ _
theorem OpcodeField.avail : OpcodeField.Statement .avail := opField_commandWord _ _
theorem OpcodeField.pop (n : Nat) : OpcodeField.Statement (.pop n) := opField_commandWord _ _
theorem OpcodeField.status : OpcodeField.Statement .status := opField_commandWord _ _
theorem OpcodeField.fbAl (a b : Byte) : OpcodeField.Statement (.fbAl a b) := opField_commandWord _ _
theorem OpcodeField.lfoFreq (b : Byte) : OpcodeField.Statement (.lfoFreq b) := opField_commandWord _ _
theorem OpcodeField.amsPms (a b : Byte) : OpcodeField.Statement (.amsPms a b) := opField_commandWord _ _
theorem OpcodeField.dtMl (a b : Byte) : OpcodeField.Statement (.dtMl a b) := opField_commandWord _ _
theorem OpcodeField.tl (b : Byte) : OpcodeField.Statement (.tl b) := opField_commandWord _ _
theorem OpcodeField.ksAr (a b : Byte) : OpcodeField.Statement (.ksAr a b) := opField_commandWord _ _
theorem OpcodeField.amDr (a : Bool) (b : Byte) : OpcodeField.Statement (.amDr a b) := opField_commandWord _ _
theorem OpcodeField.sr (b : Byte) : OpcodeField.Statement (.sr b) := opField_commandWord _ _
theorem OpcodeField.slRr (a b : Byte) : OpcodeField.Statement (.slRr a b) := opField_commandWord _ _
theorem OpcodeField.ssgEg (b : Byte) : OpcodeField.Statement (.ssgEg b) := opField_commandWord _ _
theorem OpcodeField.noteFnum (a b : Byte) : OpcodeField.Statement (.noteFnum a b) := opField_commandWord _ _
theorem OpcodeField.keyOn (b : Byte) : OpcodeField.Statement (.keyOn b) := opField_commandWord _ _
theorem OpcodeField.keyOff (b : Byte) : OpcodeField.Statement (.keyOff b) := opField_commandWord _ _

end Sys2Proof.Laws
end

