-- ==== Sys2Proof/Laws/Session.lean ====
section
/-! SUPPORT. What the operations of the host's session change (rules R150, R154): one lemma per field per operation. -/

namespace Sys2Proof.Machine

@[simp] theorem Session.engine_hw (op : EngineOp) (h : Session) : (h.engine op).hw = h.hw := rfl
@[simp] theorem Session.engine_engineUp (op : EngineOp) (h : Session) : (h.engine op).engineUp = h.engineUp := rfl
@[simp] theorem Session.engine_log (op : EngineOp) (h : Session) : (h.engine op).log = h.log ++ [op] := rfl

@[simp] theorem Session.engineCreate_hw (b : Bool) (h : Session) : (h.engineCreate b).2.hw = h.hw := rfl
@[simp] theorem Session.engineCreate_log (b : Bool) (h : Session) : (h.engineCreate b).2.log = h.log ++ [.create] := rfl
@[simp] theorem Session.engineCreate_answer (b : Bool) (h : Session) : (h.engineCreate b).1 = (!h.engineUp && b) := rfl
@[simp] theorem Session.engineCreate_engineUp (b : Bool) (h : Session) :
    (h.engineCreate b).2.engineUp = (h.engineUp || (!h.engineUp && b)) := rfl

@[simp] theorem Session.engineDestroy_hw (b : Bool) (h : Session) : (h.engineDestroy b).2.hw = h.hw := rfl
@[simp] theorem Session.engineDestroy_log (b : Bool) (h : Session) : (h.engineDestroy b).2.log = h.log ++ [.destroy] := rfl
@[simp] theorem Session.engineDestroy_answer (b : Bool) (h : Session) : (h.engineDestroy b).1 = (h.engineUp && b) := rfl
@[simp] theorem Session.engineDestroy_engineUp (b : Bool) (h : Session) :
    (h.engineDestroy b).2.engineUp = (h.engineUp && !(h.engineUp && b)) := rfl

@[simp] theorem Session.engineWrite_hw (bank : Bank) (a v : Byte) (h : Session) : (h.engineWrite bank a v).hw = h.hw := rfl
@[simp] theorem Session.engineWrite_engineUp (bank : Bank) (a v : Byte) (h : Session) :
    (h.engineWrite bank a v).engineUp = h.engineUp := rfl
@[simp] theorem Session.engineWrite_log (bank : Bank) (a v : Byte) (h : Session) :
    (h.engineWrite bank a v).log = h.log ++ [.write bank a v] := rfl

@[simp] theorem Session.writeBoth_hw (a v : Byte) (h : Session) : (h.writeBoth a v).hw = h.hw := rfl
@[simp] theorem Session.writeBoth_engineUp (a v : Byte) (h : Session) : (h.writeBoth a v).engineUp = h.engineUp := rfl
@[simp] theorem Session.writeBoth_log (a v : Byte) (h : Session) :
    (h.writeBoth a v).log = h.log ++ [.write .low a v, .write .high a v] := by
  simp [Session.writeBoth]

/-- What `Session.issue` does, given what the step answers: the continuation runs on the response and the hardware after. -/
theorem Session.issue_of_step {α : Type} {i : Instr} {h : Session} {s : State} (k : Response → Session → MacroResult α)
    (hs : step (h.hw.issue (encode i)) = .next s) :
    h.issue i k = k (s.rsp.getD ⟨false, 0, []⟩) { h with hw := s } := by
  simp [Session.issue, hs]

end Sys2Proof.Machine
end

