-- ==== Sys2Proof/Laws/Sums.lean ====
section
/-! SUPPORT. Partial sums of a delta line after a push and after a pop, what the constraints of R43 say of a kernel row as the
push reads it, and the one induction over steps that an invariant needs. -/

namespace Sys2Proof.Machine

/-! ### Kernel rows -/

theorem phaseOf_lt (pos : Nat) : phaseOf pos < Param.phases := Nat.mod_lt _ (by decide)

theorem kernelRow_eq {cfg : Config} (h : cfg.Valid) {p : Nat} (hp : p < Param.phases) :
    kernelRow cfg p = cfg.kernel.getD p [] := by
  have := (h.rowOk hp).1
  refine List.ext_getElem (by rw [kernelRow_length, this]) fun j h₁ h₂ => ?_
  simp only [kernelRow, kernelAt, List.getElem_map, List.getElem_range]
  exact List.getD_eq_getElem _ _ h₂

/-- Unity gain (R43 (a)). -/
theorem kernelRow_sum {cfg : Config} (h : cfg.Valid) (pos : Nat) : (kernelRow cfg (phaseOf pos)).sum = Param.unit := by
  rw [kernelRow_eq h (phaseOf_lt _)]
  exact (h.rowOk (phaseOf_lt _)).2.1

theorem natAbs_sum_take_le (row : List Int) : ∀ n, (row.take n).sum.natAbs ≤ (row.map Int.natAbs).sum := by
  induction row with
  | nil => simp
  | cons a row ih =>
    intro n
    cases n with
    | zero => simp
    | succ n => have := ih n; simp; omega

/-- Bounded magnitude of the first taps of a row (R43 (b)). -/
theorem kernelRow_take_le {cfg : Config} (h : cfg.Valid) (pos n : Nat) :
    ((kernelRow cfg (phaseOf pos)).take n).sum.natAbs ≤ 4 * Param.unit := by
  rw [kernelRow_eq h (phaseOf_lt _)]
  exact (natAbs_sum_take_le _ n).trans (h.rowOk (phaseOf_lt _)).2.2

/-! ### Partial sums -/

theorem sum_map_range (g : Nat → Int) (n : Nat) : ((List.range n).map g).sum = ∑ x ∈ Finset.range n, g x := by
  induction n with
  | zero => simp
  | succ n ih => simp [List.range_succ, ih, Finset.sum_range_succ]

theorem Channel.partialSum_eq (len : Nat) (c : Channel) (k : Nat) :
    c.partialSum len k = c.acc + ∑ x ∈ Finset.range k, c.lineRead len x := by
  rw [Channel.partialSum, sum_map_range]

/-- Only the integrator, the ring and the read cursor matter. -/
theorem Channel.partialSum_congr {len : Nat} {c c' : Channel} (h₁ : c'.acc = c.acc) (h₂ : c'.ring = c.ring)
    (h₃ : c'.rd = c.rd) (k : Nat) : c'.partialSum len k = c.partialSum len k := by
  simp only [Channel.partialSum, h₁]
  congr 2
  exact List.map_congr_left fun x _ => Channel.lineRead_congr h₂ h₃ x

theorem sum_row_from (row : List Int) (q : Nat) : ∀ k,
    ∑ x ∈ Finset.range k, (if q ≤ x ∧ x < q + row.length then row.getD (x - q) 0 else 0) = (row.take (k - q)).sum := by
  intro k
  induction k with
  | zero => simp
  | succ k ih =>
    rw [Finset.sum_range_succ, ih]
    by_cases h : q ≤ k
    · rw [show k + 1 - q = (k - q) + 1 by omega]
      by_cases h₂ : k < q + row.length
      · have h₃ : k - q < row.length := by omega
        rw [if_pos ⟨h, h₂⟩, List.take_add_one, List.getD_eq_getElem?_getD, List.sum_append]
        simp [List.getElem?_eq_getElem h₃]
      · rw [if_neg (by omega), List.take_of_length_le (by omega), List.take_of_length_le (by omega), add_zero]
    · rw [if_neg (by omega), show k - q = 0 by omega, show k + 1 - q = 0 by omega, add_zero]

/-- An accepted push adds to each partial sum the delta times the taps that lie below it (R83). -/
theorem Channel.partialSum_push {cfg : Config} {f : Nat} {v : Int} {c : Channel} (hw : Memory.wf c.ring = true)
    (hp : c.pushIndex f ≤ Param.capacity) {k : Nat} (hk : k ≤ cfg.lineLen) :
    (c.push cfg f v).partialSum cfg.lineLen k = c.partialSum cfg.lineLen k +
      ((kernelRow cfg (phaseOf (c.position f))).take (k - c.pushIndex f)).sum * (v - c.prev) := by
  rw [partialSum_eq, partialSum_eq, Channel.push_acc, ← sum_row_from, Finset.sum_mul, add_assoc, ← Finset.sum_add_distrib]
  congr 1
  refine Finset.sum_congr rfl fun x hx => ?_
  have hx := Finset.mem_range.1 hx
  rw [kernelRow_length]
  split
  · next h =>
    obtain ⟨j, rfl⟩ := Nat.exists_eq_add_of_le h.1
    rw [Channel.lineRead_push_tap hw hp (by omega), Nat.add_sub_cancel_left, kernelRow_getD (by omega)]
  · next h => rw [Channel.lineRead_push_other hp (by omega) (by omega), zero_mul, add_zero]

/-- A pop renumbers the partial sums down by the number popped (R90). -/
theorem Channel.partialSum_pop {cfg : Config} {n : Nat} {c : Channel} (hw : Memory.wf c.ring = true)
    (hc : c.popCount n ≤ cfg.lineLen) {k : Nat} (hk : k ≤ cfg.lineLen) :
    (c.pop cfg.lineLen n).2.partialSum cfg.lineLen k =
      c.partialSum cfg.lineLen (min (k + c.popCount n) cfg.lineLen) := by
  induction k with
  | zero => rw [Channel.partialSum_zero, Channel.pop_acc hc, Nat.zero_add, Nat.min_eq_left hc]
  | succ k ih =>
    rw [Channel.partialSum_succ, ih (by omega), Channel.lineRead_pop hw hc (by omega)]
    split
    · rw [show min (k + c.popCount n) cfg.lineLen = k + c.popCount n by omega,
        show min (k + 1 + c.popCount n) cfg.lineLen = k + c.popCount n + 1 by omega, Channel.partialSum_succ]
    · rw [show min (k + c.popCount n) cfg.lineLen = cfg.lineLen by omega,
        show min (k + 1 + c.popCount n) cfg.lineLen = cfg.lineLen by omega, add_zero]

/-! ### Steps -/

/-- A predicate that ignores the port's fields and that every effect of a decoded command keeps is kept by every step. -/
theorem step_keeps_of_effect {P : State → Prop} (hpending : ∀ s p, P s → P { s with pending := p })
    (hrsp : ∀ s r, P s → P { s with rsp := r })
    (heffect : ∀ w i s t, decode w = .command i → P s → Effect i s t → P t) {s t : State} (hs : P s)
    (h : step s = .next t) : P t := by
  rcases step_cases h with ⟨-, rfl⟩ | ⟨w, rest, -, -, rfl⟩ | ⟨w, rest, i, -, hd, h⟩
  · exact hs
  · exact hrsp _ _ (hpending _ _ hs)
  · exact heffect w i _ _ hd (hpending _ _ hs) (exec_effect h)

end Sys2Proof.Machine
end

