-- ==== Sys2Proof/Laws/TickBound.lean ====
section
/-! SUPPORT. The bound of the tick counter is reached by a run from power-on reset: at the smallest factor rules R83 and R84
accept every push up to and with the one that makes the counter equal to the bound of R23 (log entry 8). -/

namespace Sys2Proof.Machine

/-- A push that overflows in neither channel (R83, R84): its next state. -/
theorem execPush_accepted {l r : Int} {s : State} (ha : s.active = true) (hf : s.faultOvf = false)
    (hl : s.left.pushIndex s.factor ≤ Param.capacity) (hr : s.right.pushIndex s.factor ≤ Param.capacity) :
    exec (.push l r) s =
      .next ((s.setChannels (s.left.push s.cfg s.factor l) (s.right.push s.cfg s.factor r)).done 0) := by
  have ho : ¬(s.left.pushOverflows s.factor || s.right.pushOverflows s.factor) = true := by
    simp [Channel.pushOverflows, hl, hr]
  simp only [exec, execPush, State.preCheck_normal ha hf, if_neg ho]

/-- At the smallest factor and an empty buffer, every push below the bound starts within `CAPACITY` (R83). -/
theorem pushIndex_smallest_factor {c : Channel} {k : Nat} (ha : c.avail = 0) (ho : c.offset = 0) (ht : c.tick = k)
    (hk : k < (Param.capacity + 1) * Param.maxRatio) : c.pushIndex (2 ^ 17) ≤ Param.capacity := by
  simp only [Channel.pushIndex, wholeSamples, Channel.position, Param.timeBits_eq, Param.capacity_eq, Param.maxRatio_eq] at *
  omega

/-- Pushes of silence at the smallest factor are accepted as long as the counter does not pass the bound. -/
theorem pushes_smallest_factor (n : Nat) : ∀ (k : Nat) (s : State), s.active = true → s.faultOvf = false →
    s.factor = 2 ^ 17 → s.left.avail = 0 → s.left.offset = 0 → s.left.tick = k → s.right.avail = 0 → s.right.offset = 0 →
    s.right.tick = k → k + n ≤ (Param.capacity + 1) * Param.maxRatio →
    ∃ t, runCommands (pushes (List.replicate n (0, 0))) s = .next t ∧ t.faultOvf = false ∧ t.left.tick = k + n := by
  induction n with
  | zero => exact fun k s _ hf _ _ _ ht _ _ _ _ => ⟨s, rfl, hf, ht⟩
  | succ n ih =>
    intro k s ha hf hc hla hlo hlt hra hro hrt hk
    have hl := pushIndex_smallest_factor hla hlo hlt (by omega)
    have hr := pushIndex_smallest_factor hra hro hrt (by omega)
    rw [← hc] at hl hr
    obtain ⟨t, h, hft, htt⟩ := ih (k + 1)
      ((s.setChannels (s.left.push s.cfg s.factor 0) (s.right.push s.cfg s.factor 0)).done 0)
      ha hf hc (by simpa using hla) (by simpa using hlo) (by simp [hlt]) (by simpa using hra) (by simpa using hro) (by simp [hrt])
      (by omega)
    refine ⟨t, ?_, hft, by omega⟩
    have hx := execPush_accepted (l := 0) (r := 0) ha hf hl hr
    simp only [pushes, List.replicate_succ, List.map_cons, runCommands, hx]
    exact h

/-- From power-on reset at `NATIVE_RATE = MAX_RATIO`, `START 1` and `n` pushes of silence leave the tick counter at `n` without
a fault, for every `n` up to and with the bound that R23 calls strict. -/
theorem tick_bound_is_reached {cfg : Config} (hcfg : cfg.nativeRate = Param.maxRatio) {n : Nat}
    (hn : n ≤ (Param.capacity + 1) * Param.maxRatio) :
    ∃ t, runCommands (.start 1 :: pushes (List.replicate n (0, 0))) { State.reset with cfg := cfg } = .next t ∧
      t.faultOvf = false ∧ t.left.tick = n := by
  have hs : exec (.start 1) { State.reset with cfg := cfg } =
      .next ((({ State.reset with cfg := cfg } : State).construct (2 ^ 17)).done (boolWord true)) := by
    simp [exec, execStart, State.reset, rateUnusable, hcfg, ceilDiv, Param.maxRatio_eq, Param.timeBits_eq]
  obtain ⟨t, h, hf, ht⟩ := pushes_smallest_factor n 0
    ((({ State.reset with cfg := cfg } : State).construct (2 ^ 17)).done (boolWord true))
    rfl rfl rfl rfl rfl rfl rfl rfl rfl (by omega)
  exact ⟨t, by simp only [runCommands, hs]; exact h, hf, by omega⟩

end Sys2Proof.Machine
end

