-- ==== Sys2Proof/Tests/Slice0.lean ====
section
/-! SUPPORT. The model's own tests. Expected values are the spec's: 95_test_vectors.md (sections 3 to 6, named V0 to V9, P1, P5),
00_scope.md and the examples of the rules; hand calculation from the rules where a comment says so. Then one witness for
each statement that has premises. -/

namespace Sys2Proof.Tests

open Sys2Proof.Machine

/-! ### Well-formedness: each check refuses an ill-formed command (R64) -/

theorem test_start_rate_of_33_bits_is_ill_formed : (Instr.start (2 ^ 32)).wellFormed = false := by decide
theorem test_needed_count_of_33_bits_is_ill_formed : (Instr.needed (2 ^ 32)).wellFormed = false := by decide
theorem test_pop_count_of_33_bits_is_ill_formed : (Instr.pop (2 ^ 32)).wellFormed = false := by decide
theorem test_push_left_above_16_bits_is_ill_formed : (Instr.push 32768 0).wellFormed = false := by decide
theorem test_push_right_below_16_bits_is_ill_formed : (Instr.push 0 (-32769)).wellFormed = false := by decide
theorem test_extreme_operands_are_well_formed :
    (Instr.start (2 ^ 32 - 1)).wellFormed = true ∧ (Instr.push 32767 (-32768)).wellFormed = true := by decide

/-! ### Decoding: words of 95_test_vectors.md sections 3 and 4, and words written out from R60, R63, R64 -/

theorem test_decode_start : decode 0x010000AC44 = .command (.start 44100) := by decide
theorem test_decode_stop : decode 0x0200000000 = .command .stop := by decide
theorem test_decode_stop_ignores_arg : decode 0x02DEADBEEF = .command .stop := by decide
theorem test_decode_push : decode 0x030064FF9C = .command (.push 100 (-100)) := by decide
theorem test_decode_push_extremes : decode 0x037FFF8000 = .command (.push 32767 (-32768)) := by decide
theorem test_decode_endframe : decode 0x0400000000 = .command .endframe := by decide
theorem test_decode_needed : decode 0x05000007D0 = .command (.needed 2000) := by decide
theorem test_decode_avail : decode 0x0600000000 = .command .avail := by decide
theorem test_decode_pop : decode 0x07000007D0 = .command (.pop 2000) := by decide
theorem test_decode_status : decode 0x0800000000 = .command .status := by decide
theorem test_decode_fbAl : decode 0x10FFFF0503 = .command (.fbAl 5 3) := by decide
theorem test_decode_lfoFreq : decode 0x110000001B = .command (.lfoFreq 0x1B) := by decide
theorem test_decode_amsPms : decode 0x1200000205 = .command (.amsPms 2 5) := by decide
theorem test_decode_dtMl : decode 0x1300000301 = .command (.dtMl 3 1) := by decide
theorem test_decode_tl : decode 0x1400000028 = .command (.tl 40) := by decide
theorem test_decode_ksAr : decode 0x150000031F = .command (.ksAr 3 31) := by decide
theorem test_decode_amDr : decode 0x160000010A = .command (.amDr true 10) := by decide
theorem test_decode_amDr_reads_one_bit : decode 0x16000002FF = .command (.amDr false 0xFF) := by decide
theorem test_decode_sr : decode 0x1700000025 = .command (.sr 0x25) := by decide
theorem test_decode_slRr : decode 0x1800001F17 = .command (.slRr 0x1F 0x17) := by decide
theorem test_decode_ssgEg : decode 0x1900000018 = .command (.ssgEg 0x18) := by decide
theorem test_decode_noteFnum : decode 0x1A00000C09 = .command (.noteFnum 12 9) := by decide
theorem test_decode_keyOn : decode 0x1BABCD1204 = .command (.keyOn 4) := by decide
theorem test_decode_keyOff : decode 0x1C00000007 = .command (.keyOff 7) := by decide
theorem test_decode_illegal : decode 0x0000000000 = .illegalOpcode 0x00 ∧ decode 0x0900000000 = .illegalOpcode 0x09 ∧
    decode 0x0F00000000 = .illegalOpcode 0x0F ∧ decode 0x1D00000000 = .illegalOpcode 0x1D ∧
    decode 0xFF00000000 = .illegalOpcode 0xFF := by decide
theorem test_encode_push : encode (.push (-3) 4) = 0x03FFFD0004 := by decide
theorem test_encode_amDr : encode (.amDr true 10) = 0x160000010A := by decide
theorem test_table_word : decodeTableWord 40 0x1500000107 = some (.ksAr 1 7) ∧ decodeTableWord 40 0x1D00000000 = none := by
  decide

/-! ### The assembler (R69) -/

theorem test_assemble_comment_and_hexadecimal : assembleLine "TL 0x7F ; level".toList = .word 0x140000007F := by decide
theorem test_assemble_refuses_a_negative_count : assembleLine "POP -1".toList = .malformed := by decide

/-! ### One step on small states -/

/-- A channel without pending entries. -/
def lane (prev : Int) (tick offset avail rd : Nat) (acc : Int) : Channel := ⟨prev, tick, offset, avail, rd, acc, []⟩

/-- Power-on reset with the `LINEAR` kernel and the given native rate (95_test_vectors.md section 2). -/
def boot (rate : Nat) : State := { State.reset with cfg := Config.linear rate }

/-- An active unit with the `LINEAR` kernel at native rate 4 and the given factor and channels. -/
def running (factor : Nat) (l r : Channel) : State :=
  { boot 4 with active := true, factor := factor, left := l, right := r }

/-- `START 1` at native rate 4 (V1): four ticks an output sample. -/
def quarter : State := running 0x40000000 Channel.reset Channel.reset

/-- The same after an overflow fault. -/
def faulted : State := { quarter with faultOvf := true }

/-- V6 (b): ratio 1 to 1 with the buffer full. -/
def full : State := running 0x100000000 (lane 0 0 0 65536 0 0) (lane 0 0 0 65536 0 0)

/-- P1 after line 13: two frames in, two samples popped, two ticks into the next frame. -/
def p1line13 : State := running 0x40000000 (lane 100 2 0 0 2 3276800) (lane (-100) 2 0 0 2 (-3276800))

/-- P1 after line 16: the falling step on the line, one sample ready. -/
def p1line16 : State := running 0x40000000
  { lane 0 0 0 1 2 3276800 with ring := [(2, -1638400), (3, -1638400)] }
  { lane 0 0 0 1 2 (-3276800) with ring := [(2, 1638400), (3, 1638400)] }

/-- The answer of the next state: `rsp_ok`, `rsp_data`, beats. -/
def answer : Host.Outcome State Fault Refusal → Option (Bool × Nat × List Beat)
  | .next s => s.rsp.map fun r => (r.ok, r.data.toNat, r.beats)
  | .fault _ => none
  | .refused _ => none

/-- A view of the next state. -/
def after {α : Type} (view : State → α) : Host.Outcome State Fault Refusal → Option α
  | .next s => some (view s)
  | .fault _ => none
  | .refused _ => none

/-- R80's example. -/
theorem test_start : answer (exec (.start 44100) (boot 55466)) = some (true, 1, []) ∧
    after (fun s => (s.active, s.factor)) (exec (.start 44100) (boot 55466)) = some (true, 0xCB8A78F2) := by decide
/-- V0: both ends of the refused rates and a second start. -/
theorem test_start_refused : answer (exec (.start 200000) (boot 4)) = some (false, 2, []) ∧
    answer (exec (.start 0) (boot 4)) = some (false, 2, []) ∧ answer (exec (.start 2) quarter) = some (true, 0, []) := by
  decide
/-- P5 lines 13, 14. -/
theorem test_stop : answer (exec .stop faulted) = some (true, 1, []) ∧
    after (fun s => (s.active, s.factor, s.faultOvf)) (exec .stop faulted) = some (false, 0, false) := by decide
/-- V0. -/
theorem test_stop_inactive : answer (exec .stop (boot 4)) = some (true, 0, []) := by decide
/-- P1 line 14: the half-way phase; ring index 2 is logical index 0. -/
theorem test_push : after (fun s => (s.left, s.right.ring)) (exec (.push 0 0) p1line13) =
    some (⟨0, 3, 0, 0, 2, 3276800, [(2, -1638400), (3, -1638400)]⟩, [(2, 1638400), (3, 1638400)]) := by decide
/-- V6 (b): accepted at line index `CAPACITY`, the overflow fault one sample on. -/
theorem test_push_at_capacity : after (fun s => s.left.ring) (exec (.push 7 7) full) = some [(65536, 229376)] ∧
    answer (exec (.push 7 7) { full with left := lane 7 1 0 65536 0 0, right := lane 7 1 0 65536 0 0 }) =
      some (false, 4, []) := by decide
/-- V4: five ticks at 55466 to 44100. -/
theorem test_endframe :
    after (fun s => s.left) (exec .endframe (running 0xCB8A78F2 (lane 5000 5 0 0 0 0) (lane 0 5 0 0 0 0))) =
      some (lane 5000 0 0xF9B45CBA 3 0 0) ∧
    answer (exec .endframe (running 0xCB8A78F2 (lane 5000 5 0 0 0 0) (lane 0 5 0 0 0 0))) = some (true, 3, []) := by decide
/-- V6 (b): `added = 1` with the buffer full. -/
theorem test_endframe_overflow :
    answer (exec .endframe { full with left := lane 7 1 0 65536 0 0, right := lane 7 1 0 65536 0 0 }) =
      some (false, 4, []) := by decide
/-- V7: exact with and without a carried fraction. -/
theorem test_needed : answer (exec (.needed 2000) (running 0xCB8A78F2 Channel.reset Channel.reset)) = some (true, 2516, []) ∧
    answer (exec (.needed 2000) (running 0xCB8A78F2 (lane 0 0 0x6CECAA68 0 0 0) (lane 0 0 0x6CECAA68 0 0 0))) =
      some (true, 2515, []) := by decide
/-- V0. -/
theorem test_needed_refused : answer (exec (.needed 65537) quarter) = some (false, 2, []) ∧
    answer (exec (.needed 70000) (boot 4)) = some (true, 0, []) := by decide
/-- V6 (b), (c). -/
theorem test_avail : answer (exec .avail full) = some (true, 65536, []) ∧
    answer (exec .avail faulted) = some (false, 3, []) := by decide
/-- P1 line 17 and its end state. -/
theorem test_pop : answer (exec (.pop 5) p1line16) = some (true, 1, [⟨50, -50⟩]) ∧
    after (fun s => s.left) (exec (.pop 5) p1line16) = some ⟨0, 0, 0, 0, 3, 1638400, [(3, -1638400)]⟩ := by decide
/-- V9: the clamp acts on the output, not on the integrator. -/
theorem test_pop_saturates : answer (exec (.pop 3) (running 0x100000000
      { lane 32767 0 0 3 0 0 with ring := [(0, 1342136320), (1, -268427264)] }
      { lane (-32768) 0 0 3 0 0 with ring := [(0, -1342177280), (1, 268435456)] })) =
    some (true, 3, [⟨32767, -32768⟩, ⟨32767, -32768⟩, ⟨32767, -32768⟩]) := by decide
/-- R92's example. -/
theorem test_status : answer (exec .status faulted) = some (true, 3, []) ∧
    answer (exec .status quarter) = some (true, 1, []) ∧ answer (exec .status (boot 4)) = some (true, 0, []) := by decide

/-! The codec's answers, 95_test_vectors.md section 4. -/

theorem test_fbAl : answer (exec (.fbAl 5 3) (boot 4)) = some (true, 0x2B, []) ∧
    answer (exec (.fbAl 8 8) faulted) = some (true, 0, []) := by decide
theorem test_lfoFreq : answer (exec (.lfoFreq 0x1B) (boot 4)) = some (true, 0x0B, []) := by decide
theorem test_amsPms : answer (exec (.amsPms 2 5) (boot 4)) = some (true, 0x25, []) ∧
    answer (exec (.amsPms 0xFF 0xFF) (boot 4)) = some (true, 0x37, []) := by decide
theorem test_dtMl : answer (exec (.dtMl 3 1) (boot 4)) = some (true, 0x31, []) ∧
    answer (exec (.dtMl 0xFF 0xFF) (boot 4)) = some (true, 0x7F, []) := by decide
theorem test_tl : answer (exec (.tl 0x7F) (boot 4)) = some (true, 0x3F, []) ∧
    answer (exec (.tl 0x40) (boot 4)) = some (true, 0, []) := by decide
theorem test_ksAr : answer (exec (.ksAr 3 31) (boot 4)) = some (true, 0xDF, []) ∧
    answer (exec (.ksAr 1 0x3F) (boot 4)) = some (true, 0x5F, []) := by decide
theorem test_amDr : answer (exec (.amDr true 10) (boot 4)) = some (true, 0x8A, []) ∧
    answer (exec (.amDr false 0xFF) (boot 4)) = some (true, 0x1F, []) := by decide
theorem test_sr : answer (exec (.sr 0x25) (boot 4)) = some (true, 0x05, []) := by decide
theorem test_slRr : answer (exec (.slRr 15 7) (boot 4)) = some (true, 0xF7, []) ∧
    answer (exec (.slRr 0x1F 0x17) (boot 4)) = some (true, 0xF7, []) := by decide
theorem test_ssgEg : answer (exec (.ssgEg 0x18) (boot 4)) = some (true, 0x08, []) := by decide
theorem test_noteFnum : answer (exec (.noteFnum 7 0) (boot 4)) = some (true, 0x3A69, []) ∧
    answer (exec (.noteFnum 4 0x19) (boot 4)) = some (true, 0x240E, []) := by decide
theorem test_noteFnum_refused : answer (exec (.noteFnum 4 12) (boot 4)) = some (false, 2, []) := by decide
theorem test_keyOn : answer (exec (.keyOn 2) (boot 4)) = some (true, 0xF2, []) ∧
    answer (exec (.keyOn 5) (boot 4)) = some (true, 0xF6, []) ∧ answer (exec (.keyOn 6) (boot 4)) = some (true, 0x100, []) := by
  decide
theorem test_keyOff : answer (exec (.keyOff 4) (boot 4)) = some (true, 0x05, []) ∧
    answer (exec (.keyOff 7) (boot 4)) = some (true, 0x100, []) := by decide

/-! The port and the host. -/

/-- R67: an illegal word is answered and the word taken. -/
theorem test_step_illegal : answer (step ((boot 4).issue 0x1D00000000)) = some (false, 1, []) ∧
    after (fun s => s.pending) (step ((boot 4).issue 0x1D00000000)) = some [] := by decide
/-- The host's question: the word placed is the one carried out. -/
theorem test_step_runs_the_placed_word : answer (step (State.reset.withFetchWord 40 0x1400000028)) = some (true, 0x28, []) := by
  decide

/-- A host session over a state, the chip engine created. -/
def host (s : State) : Session := ⟨s, true, []⟩

/-- What a macro leaves recorded and returns. -/
def recorded {α : Type} : MacroResult α → Option (List EngineOp × α)
  | .next r => some (r.1.log, r.2)
  | .fault _ => none
  | .refused _ => none

/-- P3 lines 2 to 8: the four writes of `NOTE_ON 4, A, 4` and `NOTE_OFF 4`, none of `NOTE_ON 6`. -/
theorem test_note_macros :
    recorded ((host quarter).noteOn HostParams.gk 4 .a 4) =
      some ([.write .high 0xA5 0x24, .write .high 0xA1 0x0E, .write .low 0x28 0xF5], ()) ∧
    recorded ((host quarter).noteOff 4) = some ([.write .low 0x28 0x05], ()) ∧
    recorded ((host quarter).noteOn HostParams.gk 6 .a 4) = some ([], ()) := by decide

/-- T5: a second start fails and touches nothing. -/
theorem test_session_double_start : recorded ((host quarter).start HostParams.gk true true 1) = some ([], false) := by decide

/-- V1's ratio: one sample is four ticks of the engine. -/
theorem test_generate : recorded ((host quarter).generate (fun _ => (100, -100)) 1) =
    some ([.generate 4], [⟨100, -100⟩]) := by decide

/-- The operators' settings of section 6's `SET_TONE` example. -/
def exampleOperator : FmOperator := ⟨31, 10, 5, 7, 15, 40, 3, 1, 3, true, 0⟩

/-- The tone of section 6's `SET_TONE` example. -/
def exampleTone : FmTone := ⟨4, 5, exampleOperator, exampleOperator, exampleOperator, exampleOperator, 0, 0, 0⟩

/-- The addresses of the first writes of section 6's `SET_TONE` example, up to the address operator 1 begins at. -/
theorem test_tone_addresses : ((toneWrites HostParams.gk exampleTone).take 11).map ToneWrite.addr =
    [0x22, 0xB0, 0xB4, 0x30, 0x40, 0x50, 0x60, 0x70, 0x80, 0x90, 0x38] := by decide

/-- The bytes of the same writes. -/
theorem test_tone_bytes : ((toneWrites HostParams.gk exampleTone).take 11).map
      (fun w => (answer (exec w.command quarter)).map fun r => r.2.1 ||| w.orBits.toNat) =
    [some 0x00, some 0x2C, some 0xC0, some 0x31, some 0x28, some 0xDF, some 0x8A, some 0x05, some 0xF7, some 0x00, some 0x31] := by
  decide

/-! ### Witnesses: a concrete case that meets all the premises of each statement that has premises -/

/-- A unit in the middle of a frame whose line is empty and whose integrator is at the level of the last sample. -/
def settled : State := running 0x40000000 (lane 100 3 5 2 65537 3276800) (lane (-100) 3 5 2 65537 (-3276800))

/-- The settled unit at the start of a frame. -/
def betweenFrames : State := running 0x40000000 (lane 100 0 5 2 65537 3276800) (lane (-100) 0 5 2 65537 (-3276800))

/-- The smallest factor, the tick counter one below the strict bound of R23 (log entry 8). -/
def lastTick : State := running (2 ^ 17) (lane 0 2147516415 0 0 0 0) (lane 0 2147516415 0 0 0 0)

/-- A channel with an empty line reads 0 everywhere. -/
theorem lineRead_of_empty {len : Nat} {c : Channel} (h : c.ring = []) (x : Nat) : c.lineRead len x = 0 := by
  simp [Channel.lineRead, h]

theorem partialSum_of_empty {len : Nat} {c : Channel} (h : c.ring = []) (k : Nat) : c.partialSum len k = c.acc := by
  induction k with
  | zero => exact Channel.partialSum_zero len c
  | succ k ih => rw [Channel.partialSum_succ, ih, lineRead_of_empty h, add_zero]

/-- The invariant of a state with empty lines and both integrators at the level of the last sample. -/
theorem inv_of_empty {s : State} (hc : s.cfg.Valid) (hs : s.Lockstep ∧ s.InRange ∧ s.RingsWf)
    (hl : s.left.ring = [] ∧ s.left.acc = Param.unit * s.left.prev)
    (hr : s.right.ring = [] ∧ s.right.acc = Param.unit * s.right.prev) : s.Inv := by
  have bound : ∀ c : Channel, c.InRange s.cfg → c.ring = [] → c.acc = Param.unit * c.prev →
      c.LineBounded s.cfg s.factor := by
    intro c hr he ha k _
    rw [partialSum_of_empty he, ha, Param.unit_eq]
    have := hr.2.2.2.1
    refine Nat.le_trans ?_ (Nat.le_add_right _ _)
    omega
  exact ⟨hc, hs.1, hs.2.1, hs.2.2, ⟨fun x _ _ => lineRead_of_empty hl.1 x, fun x _ _ => lineRead_of_empty hr.1 x⟩,
    ⟨(partialSum_of_empty hl.1 _).trans hl.2, (partialSum_of_empty hr.1 _).trans hr.2⟩,
    bound _ hs.2.1.1 hl.1 hl.2, bound _ hs.2.1.2.1 hr.1 hr.2⟩

theorem inv_settled : settled.Inv :=
  inv_of_empty (Config.linear_valid (by decide) (by decide)) (by decide) (by decide) (by decide)
theorem inv_betweenFrames : betweenFrames.Inv :=
  inv_of_empty (Config.linear_valid (by decide) (by decide)) (by decide) (by decide) (by decide)
theorem inv_lastTick : lastTick.Inv :=
  inv_of_empty (Config.linear_valid (by decide) (by decide)) (by decide) (by decide) (by decide)

/-! Encoding. -/

theorem witness_DecodeOfEncodeIsTheCommand :
    (Instr.push (-32768) 32767).wellFormed = true ∧ (Instr.needed (2 ^ 32 - 1)).wellFormed = true := by decide
theorem witness_DecodedCommandReencodesToItsUsedBits : decode 0x1BABCD1204 = .command (.keyOn 4) := by decide
theorem witness_IgnoredBitsDoNotMatter : decode 0x02DEADBEEF = .command .stop ∧
    (0x0200000000 : CmdWord) &&& usedBits .stop = 0x02DEADBEEF &&& usedBits .stop := by decide

/-! The port. -/

theorem witness_StepCarriesOutTheDecodedCommand :
    (settled.issue 0x030064FF9C).pending = [0x030064FF9C] ∧ decode 0x030064FF9C = .command (.push 100 (-100)) := by decide
/-- Each range of illegal opcodes at both its ends. -/
theorem witness_StepAnswersAnIllegalOpcode : (settled.issue 0x0900000000).pending = [0x0900000000] ∧
    (opField 0x0000000000).toNat = 0 ∧ (opField 0x0900000000).toNat = 9 ∧ (opField 0x0F00000000).toNat = 15 ∧
    (opField 0x1D00000000).toNat = 29 ∧ (opField 0xFF00000000).toNat = 255 := by decide
theorem witness_StepWithNothingIssuedChangesNothing : settled.pending = [] := by decide
theorem witness_PortRunsTheProgramInOrder :
    ∀ i ∈ [Instr.push 7 (-7), Instr.endframe, Instr.pop 2], i.wellFormed = true := by decide

/-! Reset and lifecycle. -/

/-- The lowest and the highest usable rate, and an active state. -/
theorem witness_PowerOnStartAndStopValues : (boot 4).active = false ∧ rateUnusable (boot 4).cfg.nativeRate 1 = false ∧
    rateUnusable (boot 4).cfg.nativeRate 131072 = false ∧ settled.active = true := by decide
theorem witness_AfterStopIsAfterReset : settled.InRange ∧
    ∃ t, runCommands [.stop, .start 1, .push 7 (-7)] settled = .next t :=
  ⟨by decide, _, rfl⟩

/-! The pre-check and failures. -/

theorem witness_PreCheckOfTheDataCommands : (boot 4).active = false ∧ faulted.active = true ∧ faulted.faultOvf = true ∧
    (∃ l r, Instr.push 7 (-7) = .push l r) ∧ (∃ n, Instr.needed 5 = .needed n) ∧ (∃ n, Instr.pop 5 = .pop n) :=
  ⟨rfl, rfl, rfl, ⟨7, -7, rfl⟩, ⟨5, rfl⟩, 5, rfl⟩
/-- One sample beyond the capacity on either side. -/
theorem witness_OverflowFaultSetsOneBit : full.active = true ∧ full.faultOvf = false ∧
    65536 < (lane 0 1 0 65536 0 0).avail + ((lane 0 1 0 65536 0 0).tick * full.factor + (lane 0 1 0 65536 0 0).offset) / 2 ^ 32 ∧
    ¬65536 < full.left.avail + (full.left.tick * full.factor + full.left.offset) / 2 ^ 32 := by decide
theorem witness_FaultedStateIsChangedByStopOnly : faulted.active = true ∧ faulted.faultOvf = true ∧
    Instr.push 7 (-7) ≠ .stop ∧ ∃ t, exec (.push 7 (-7)) faulted = .next t :=
  ⟨rfl, rfl, by decide, _, rfl⟩
/-- The fault bit set by a push and by the end of a frame, and cleared. -/
theorem witness_FaultBitWriters :
    ({ full with left := lane 7 1 0 65536 0 0, right := lane 7 1 0 65536 0 0 } : State).InRange ∧ faulted.InRange ∧
    after (fun t => t.faultOvf) (exec (.push 7 7) { full with left := lane 7 1 0 65536 0 0, right := lane 7 1 0 65536 0 0 }) =
      some true ∧
    after (fun t => t.faultOvf) (exec .endframe { full with left := lane 7 1 0 65536 0 0, right := lane 7 1 0 65536 0 0 }) =
      some true ∧
    after (fun t => t.faultOvf) (exec .stop faulted) = some false := by decide
/-- Each of the three failures of a command. -/
theorem witness_FailedCommandsHaveNoPartialEffect :
    answer (exec (.start 0) (boot 4)) = some (false, 2, []) ∧ answer (exec (.pop 1) faulted) = some (false, 3, []) ∧
    answer (exec .endframe { full with left := lane 7 1 0 65536 0 0, right := lane 7 1 0 65536 0 0 }) =
      some (false, 4, []) := by decide
theorem witness_FactorIsFixedWhileActive : settled.active = true ∧
    after (fun t => t.active) (step (settled.issue 0x030064FF9C)) = some true := by decide
theorem witness_ActiveBitWriters : (boot 4).active = false ∧ after (fun t => t.active) (exec (.start 1) (boot 4)) = some true ∧
    settled.active = true ∧ after (fun t => t.active) (exec .stop settled) = some false := by decide

/-! The resampler's data commands. -/

/-- In the middle of a frame, and at the last line index a push may reach. -/
theorem witness_PushResult : settled.active = true ∧ settled.faultOvf = false ∧ settled.RingsWf ∧
    settled.left.avail + (settled.left.tick * settled.factor + settled.left.offset) / 2 ^ 32 ≤ 65536 ∧
    settled.right.avail + (settled.right.tick * settled.factor + settled.right.offset) / 2 ^ 32 ≤ 65536 ∧
    full.RingsWf ∧ full.left.avail + (full.left.tick * full.factor + full.left.offset) / 2 ^ 32 = 65536 := by decide
/-- The last entry counted in `avail`, before and after a push; the last one left by a pop. -/
theorem witness_FinishedEntriesKeepTheirValues : p1line16.active = true ∧ p1line16.faultOvf = false ∧
    p1line16.left.avail ≤ 65536 ∧ p1line16.right.avail ≤ 65536 ∧ (∀ n, Instr.push 7 (-7) ≠ .pop n) ∧
    Instr.push 7 (-7) ≠ .stop ∧ (∃ t, exec (.push 7 (-7)) p1line16 = .next t) ∧ 0 < p1line16.left.avail ∧
    0 < p1line16.right.avail ∧ settled.active = true ∧ settled.faultOvf = false ∧ settled.left.avail ≤ 65536 ∧
    settled.right.avail ≤ 65536 ∧ Instr.pop 1 ≠ .stop ∧ (∃ t, exec (.pop 1) settled = .next t) ∧
    0 + min 1 settled.left.avail < settled.left.avail ∧ 0 + min 1 settled.right.avail < settled.right.avail :=
  ⟨rfl, rfl, by decide, by decide, fun _ => by simp, by decide, ⟨_, rfl⟩, by decide, by decide, rfl, rfl, by decide, by decide,
    by decide, ⟨_, rfl⟩, by decide, by decide⟩
/-- A short frame, and the longest that fits. -/
theorem witness_EndframeResult : settled.active = true ∧ settled.faultOvf = false ∧
    settled.left.avail + (settled.left.tick * settled.factor + settled.left.offset) / 2 ^ 32 ≤ 65536 ∧
    (lane 0 65536 0 0 0 0).avail + ((lane 0 65536 0 0 0 0).tick * full.factor + (lane 0 65536 0 0 0 0).offset) / 2 ^ 32 =
      65536 := by decide
theorem witness_NeededIsTheLeastFrameLength : betweenFrames.InRange ∧ betweenFrames.active = true ∧
    ∃ t, exec (.needed 1) betweenFrames = .next t ∧ t.rsp = some ⟨true, 4, []⟩ :=
  ⟨by decide, rfl, _, rfl, by decide⟩
/-- The largest count that is not refused, and the smallest that is (V4, R88). -/
theorem witness_NeededResult_at_capacity :
    answer (exec (.needed 65536) (running 0xCB8A78F2 Channel.reset Channel.reset)) = some (true, 82427, []) ∧
    answer (exec (.needed 65537) (running 0xCB8A78F2 Channel.reset Channel.reset)) = some (false, 2, []) := by decide
theorem witness_PopResult : p1line16.active = true ∧ p1line16.faultOvf = false ∧ p1line16.RingsWf ∧
    p1line16.left.avail ≤ 65536 ∧ p1line16.right.avail ≤ 65536 := by decide
theorem witness_PopsCompose : settled.active = true ∧ settled.faultOvf = false ∧ settled.Lockstep ∧
    ∃ t, exec (.pop 1) settled = .next t ∧ ∃ u, exec (.pop 2) t = .next u ∧ ∃ v, exec (.pop 3) settled = .next v :=
  ⟨rfl, rfl, by decide, _, rfl, _, rfl, _, rfl⟩
theorem witness_WriteCursorMoves : settled.active = true ∧ settled.faultOvf = false ∧ settled.InRange ∧
    after (fun t => t.faultOvf) (exec .endframe settled) = some false ∧ ∃ t, exec (.pop 1) settled = .next t :=
  ⟨rfl, rfl, by decide, by decide, _, rfl⟩

/-! The codec, and the words of the commands whose result statements name them. -/

theorem witness_words_of_the_result_statements : opField 0x010000AC44 = 0x01 ∧ opField 0x0200000000 = 0x02 ∧
    opField 0x05000007D0 = 0x05 ∧ opField 0x0600000000 = 0x06 ∧ opField 0x0800000000 = 0x08 ∧ opField 0x1000000503 = 0x10 ∧
    opField 0x1900000018 = 0x19 ∧ opField 0x1A00000409 = 0x1A ∧ opField 0x1B00000004 = 0x1B ∧ opField 0x1C00000007 = 0x1C := by
  decide
theorem witness_PackersResult : packedNumber (.ksAr 1 0x3F) = some 0x5F ∧ packedNumber (.amDr true 10) = some 0x8A := by
  decide
theorem witness_PackersAreIdempotent : packedNumber (.amsPms 0xFF 0xFF) = some 0x37 := by decide
theorem witness_CodecDependsOnOperandsAndConfigurationOnly :
    isCodecCommand (.keyOn 4) = true ∧ isCodecCommand (.fbAl 5 3) = true ∧
    settled.cfg.fnumTable = (boot 55466).cfg.fnumTable ∧ settled.cfg.slotFlags = (boot 55466).cfg.slotFlags ∧
    settled.cfg.highBankFlag = (boot 55466).cfg.highBankFlag := by decide

/-! The invariants. -/

theorem witness_StepKeepsLockstep : (settled.issue 0x030064FF9C).Lockstep ∧
    ∃ t, step (settled.issue 0x030064FF9C) = .next t :=
  ⟨by decide, _, rfl⟩
theorem witness_StepKeepsRanges : (settled.issue 0x030064FF9C).InRange ∧ ∃ t, step (settled.issue 0x030064FF9C) = .next t :=
  ⟨by decide, _, rfl⟩
theorem witness_StepKeepsRingsCanonical : (p1line16.issue 0x0700000005).RingsWf ∧
    ∃ t, step (p1line16.issue 0x0700000005) = .next t :=
  ⟨by decide, _, rfl⟩
/-- Both clauses, the second at the lowest line index it speaks of. -/
theorem witness_StepKeepsOccupancy : (settled.issue 0x030064FF9C).InRange ∧ (settled.issue 0x030064FF9C).RingsWf ∧
    (settled.issue 0x030064FF9C).Occupied ∧ (∃ t, step (settled.issue 0x030064FF9C) = .next t) ∧
    betweenFrames.InRange ∧ betweenFrames.Occupied ∧ 4 < betweenFrames.cfg.lineLen ∧ betweenFrames.left.tick = 0 ∧
    betweenFrames.left.avail + betweenFrames.cfg.taps = 4 :=
  ⟨by decide, by decide, inv_settled.2.2.2.2.1, ⟨_, rfl⟩, by decide, inv_betweenFrames.2.2.2.2.1, by decide, by decide,
    by decide⟩
theorem witness_StepKeepsBalance : (settled.issue 0x030064FF9C).cfg.Valid ∧ (settled.issue 0x030064FF9C).InRange ∧
    (settled.issue 0x030064FF9C).RingsWf ∧ (settled.issue 0x030064FF9C).Balanced ∧
    ∃ t, step (settled.issue 0x030064FF9C) = .next t :=
  ⟨inv_settled.1, by decide, by decide, inv_settled.2.2.2.2.2.1, _, rfl⟩
theorem witness_StepKeepsLineBounds : (settled.issue 0x030064FF9C).Inv ∧ ∃ t, step (settled.issue 0x030064FF9C) = .next t :=
  ⟨inv_settled, _, rfl⟩
theorem witness_InvariantFitsTheStatedWidths : settled.Inv ∧ 0 < settled.cfg.lineLen := ⟨inv_settled, by decide⟩
theorem witness_StrictTickBoundSurvivesEveryPush : lastTick.Inv ∧ lastTick.left.tick < (65536 + 1) * 32768 ∧
    ∃ t, exec (.push 0 0) lastTick = .next t :=
  ⟨inv_lastTick, by decide, _, rfl⟩

/-- The premises at an ordinary step, and at the push that leaves the worded ranges. -/
theorem witness_OnlyTheLastPushLeavesTheWordedRanges : (settled.issue 0x030064FF9C).InRangeAsWorded ∧
    (∃ t, step (settled.issue 0x030064FF9C) = .next t) ∧ (lastTick.issue 0x0300000000).InRangeAsWorded ∧
    lastTick.factor = 2 ^ 17 ∧ lastTick.left.tick + 1 = (65536 + 1) * 32768 ∧ decode 0x0300000000 = .command (.push 0 0) ∧
    after (fun t => decide t.InRangeAsWorded) (step (lastTick.issue 0x0300000000)) = some false :=
  ⟨by decide, ⟨_, rfl⟩, by decide, by decide, by decide, by decide, by decide⟩

/-! Whole runs. -/

theorem witness_FramesCanBeSplit :
    after (fun t => t.faultOvf)
      (runCommands (pushes [(7, -7), (9, -9)] ++ .endframe :: (pushes [(3, -3)] ++ [.endframe])) settled) = some false ∧
    after (fun t => t.faultOvf) (runCommands (pushes ([(7, -7), (9, -9)] ++ [(3, -3)]) ++ [.endframe]) settled) =
      some false := by decide
/-- `NEEDED 1` answers 4: four pushes for the first clause, three for the second. -/
theorem witness_NeededPushesSuffice : betweenFrames.InRange ∧ betweenFrames.Lockstep ∧ betweenFrames.active = true ∧
    betweenFrames.faultOvf = false ∧ betweenFrames.left.tick = 0 ∧
    ∃ s', exec (.needed 1) betweenFrames = .next s' ∧ s'.rsp = some ⟨true, 4, []⟩ ∧
      after (fun t => t.faultOvf) (runCommands (pushes [(7, -7), (9, 1), (3, 0), (2, 2)] ++ [.endframe]) s') = some false ∧
      after (fun t => t.faultOvf) (runCommands (pushes [(7, -7), (9, 1), (3, 0)] ++ [.endframe]) s') = some false :=
  ⟨by decide, by decide, rfl, rfl, rfl, _, rfl, by decide, by decide, by decide⟩
/-- Eight equal samples from the settled unit: two more samples are ready, and the fourth of all (line index 3, the position
2 and `W - 1 = 1` beyond it) is the sample. -/
theorem witness_ConstantInputSettles : settled.Inv ∧ settled.active = true ∧ settled.faultOvf = false ∧
    fitsS16 7 = true ∧ fitsS16 (-7) = true ∧
    ∃ t, runCommands (pushes (List.replicate (7 + 1) (7, -7)) ++ [.endframe]) settled = .next t ∧ t.faultOvf = false ∧
      ∃ u, exec (.pop 4) t = .next u ∧ (∃ rsp, u.rsp = some rsp ∧ rsp.beats[3]? = some ⟨7, -7⟩) ∧
        settled.left.avail + (settled.left.tick * settled.factor + settled.left.offset) / 2 ^ 32 + (settled.cfg.taps - 1) = 3 :=
  ⟨inv_settled, rfl, rfl, by decide, by decide, _, rfl, by decide, _, rfl, ⟨_, rfl, by decide⟩, by decide⟩
/-- Two runs that differ in left samples, from states that differ in the left lane's level. -/
theorem witness_LeftDataNeverReachesTheRight :
    List.Forall₂ sameButLeft [.push 7 5, .endframe, .pop 1] [.push (-9) 5, .endframe, .pop 1] ∧
    settled.rightView = ({ settled with left := lane 0 3 5 2 65537 0 } : State).rightView ∧
    (∃ t, runCommands [.push 7 5, .endframe, .pop 1] settled = .next t) ∧
    ∃ t, runCommands [.push (-9) 5, .endframe, .pop 1] { settled with left := lane 0 3 5 2 65537 0 } = .next t :=
  ⟨.cons rfl (.cons rfl (.cons rfl .nil)), by decide, ⟨_, rfl⟩, _, rfl⟩

/-! The host's macros. -/

theorem witness_SessionLifecycle : (Session.mk (boot 4) false []).hw.active = false ∧
    (Session.mk (boot 4) false []).engineUp = false ∧ (131072 : Nat) < 2 ^ 32 ∧
    ¬((131072 : Nat) = 0 ∨ (boot 4).cfg.nativeRate * 32768 < 131072 ∨ 131072 * 32768 < (boot 4).cfg.nativeRate) := by decide
/-- A writing case and the silent cases of the tone and note macros. -/
theorem witness_SetToneWrites_NoteOnWrites_NoteOffWrites : (host settled).hw.active = true ∧ (host (boot 4)).hw.active = false ∧
    ¬6 ≤ (5 : Byte).toNat ∧ 6 ≤ (6 : Byte).toNat := by decide
theorem witness_GenerateDeliversTheCount : (host betweenFrames).hw.Inv ∧ (host betweenFrames).hw.active = true ∧
    (host betweenFrames).hw.faultOvf = false ∧ (host betweenFrames).hw.left.tick = 0 ∧ (65536 : Nat) ≤ 65536 ∧
    (∀ _ : Nat, fitsS16 (7, -7).1 = true ∧ fitsS16 (7, -7).2 = true) ∧ (host betweenFrames).hw.factor ≤ 2 ^ 32 :=
  ⟨inv_betweenFrames, rfl, rfl, rfl, by decide, fun _ => by decide, by decide⟩
theorem witness_GenerateWithoutSessionWritesNothing : (host (boot 4)).hw.active = false := rfl

end Sys2Proof.Tests
end

section
/-! Encode then decode: the fields of a command word built by `commandWord` are the parts it was built from (R60, R64). -/

namespace Sys2Proof

theorem argField_commandWord (op : Byte) (arg : DataWord) : argField (commandWord op arg) = arg := by
  refine BitVec.eq_of_getLsbD_eq fun i hi => ?_
  simp [argField, commandWord, hi, show i < 40 by omega]

theorem leftField_commandWord (op : Byte) (left right : Int) :
    leftField (commandWord op (samplesArg left right)) = BitVec.ofInt 16 left := by
  refine BitVec.eq_of_getLsbD_eq fun i hi => ?_
  simp [leftField, commandWord, samplesArg, hi, show 16 + i < 40 by omega, show 16 + i < 32 by omega]

theorem rightField_commandWord (op : Byte) (left right : Int) :
    rightField (commandWord op (samplesArg left right)) = BitVec.ofInt 16 right := by
  refine BitVec.eq_of_getLsbD_eq fun i hi => ?_
  simp [rightField, commandWord, samplesArg, hi, show i < 40 by omega, show i < 32 by omega]

theorem aField_commandWord (op a b : Byte) : aField (commandWord op (bytesArg a b)) = a := by
  refine BitVec.eq_of_getLsbD_eq fun i hi => ?_
  simp [aField, commandWord, bytesArg, hi, show 8 + i < 40 by omega, show 8 + i < 32 by omega]

theorem bField_commandWord (op a b : Byte) : bField (commandWord op (bytesArg a b)) = b := by
  refine BitVec.eq_of_getLsbD_eq fun i hi => ?_
  simp [bField, commandWord, bytesArg, hi, show i < 40 by omega, show i < 32 by omega]

theorem amField_eq (w : CmdWord) : amField w = (aField w).getLsbD 0 := by
  simp [amField, aField]

theorem opField_encode (i : Instr) : opField (encode i) = i.opcode := Laws.opField_commandWord _ _

/-- A number that fits 32 bits comes back from its operand word (R64). -/
theorem toNat_argField_of_fitsU32 {n : Nat} (h : fitsU32 n = true) (op : Byte) :
    (argField (commandWord op (BitVec.ofNat 32 n))).toNat = n := by
  rw [argField_commandWord, BitVec.toNat_ofNat, Nat.mod_eq_of_lt (of_decide_eq_true h)]

theorem toInt_ofInt_of_fitsS16 {v : Int} (h : fitsS16 v = true) : (BitVec.ofInt 16 v).toInt = v := by
  simp only [fitsS16, Bool.and_eq_true, decide_eq_true_eq] at h
  exact BitVec.toInt_ofInt_eq_self (by decide) h.1 h.2

/-- A left sample that fits 16 bits comes back from its field, sign-extended (R64). -/
theorem toInt_leftField_of_fitsS16 {l : Int} (h : fitsS16 l = true) (op : Byte) (r : Int) :
    (leftField (commandWord op (samplesArg l r))).toInt = l := by
  rw [leftField_commandWord, toInt_ofInt_of_fitsS16 h]

/-- A right sample that fits 16 bits comes back from its field, sign-extended (R64). -/
theorem toInt_rightField_of_fitsS16 {r : Int} (h : fitsS16 r = true) (op : Byte) (l : Int) :
    (rightField (commandWord op (samplesArg l r))).toInt = r := by
  rw [rightField_commandWord, toInt_ofInt_of_fitsS16 h]

/-- Decoding the word of a well-formed command gives the command again (R60, R63, R64). -/
theorem decode_encode {i : Instr} (h : i.wellFormed = true) : decode (encode i) = .command i := by
  rw [decode, opField_encode]
  cases i with
  | start n | needed n | pop n =>
    simp [Instr.opcode, encode, Instr.arg, toNat_argField_of_fitsU32 h]
  | push l r =>
    obtain ⟨hl, hr⟩ : fitsS16 l = true ∧ fitsS16 r = true := by simpa [Instr.wellFormed] using h
    simp [Instr.opcode, encode, Instr.arg, toInt_leftField_of_fitsS16 hl, toInt_rightField_of_fitsS16 hr]
  | amDr am dr =>
    cases am <;> simp [Instr.opcode, encode, Instr.arg, amField_eq, aField_commandWord, bField_commandWord]
  | _ => simp [Instr.opcode, encode, Instr.arg, aField_commandWord, bField_commandWord]

/-- A push that the decoder gives has 16-bit samples (R64). -/
theorem decode_push_fits {w : CmdWord} {l r : Int} (h : decode w = .command (.push l r)) :
    (-(2 ^ 15) ≤ l ∧ l < 2 ^ 15) ∧ (-(2 ^ 15) ≤ r ∧ r < 2 ^ 15) := by
  unfold decode at h
  split at h
  -- The third row of the decoder is the one that gives a push.
  case h_3 =>
    obtain ⟨rfl, rfl⟩ : (leftField w).toInt = l ∧ (rightField w).toInt = r := by simpa using h
    exact ⟨⟨BitVec.le_toInt _, BitVec.toInt_lt⟩, BitVec.le_toInt _, BitVec.toInt_lt⟩
  all_goals simp at h

end Sys2Proof
end

section
/-! Programs at the port: a command neither reads nor changes the words that wait behind it, so a list of words is carried
out as the list of their commands (R24, R50, R71). -/

namespace Sys2Proof.Machine

/-- The state with `p` as the words that wait at the port (log entry 1). -/
def State.waiting (p : List CmdWord) (s : State) : State := { s with pending := p }

/-- The pre-check does not look at the words that wait at the port (R82). -/
theorem State.preCheck_waiting (p : List CmdWord) (s normal : State) :
    (s.waiting p).preCheck (normal.waiting p) = (s.preCheck normal).waiting p := by
  simp only [State.preCheck, apply_ite (State.waiting p)]
  rfl

/-- Every command has a next state (R180, R181). -/
theorem exec_total (i : Instr) (s : State) : ∃ t, exec i s = .next t := by
  cases i <;> exact ⟨_, rfl⟩

/-- The words that wait at the port are not read by a command and stay behind it (R50, R71). -/
theorem exec_waiting {i : Instr} {s t : State} (p : List CmdWord) (h : exec i s = .next t) :
    exec i (s.waiting p) = .next (t.waiting p) := by
  cases i
  case push | endframe | needed | avail | pop =>
    cases h
    simp only [exec, execPush, execEndframe, execNeeded, execAvail, execPop, ← State.preCheck_waiting,
      apply_ite (State.waiting p)]
    rfl
  case start | stop | noteFnum | keyOn | keyOff =>
    cases h
    simp only [exec, execStart, execStop, execNoteFnum, execKeyOn, execKeyOff, apply_ite (State.waiting p)]
    rfl
  all_goals
    cases h
    rfl

theorem step_issued {s : State} {w : CmdWord} {i : Instr} (rest : List CmdWord) (hd : decode w = .command i) :
    step (s.waiting (w :: rest)) = exec i (s.waiting rest) := by
  simp only [step, State.takeCommand_cons (s := s.waiting (w :: rest)) rfl, hd]
  rfl

/-- One more step of a run of the machine, when the step has a next state. -/
theorem core_run_succ {s t : State} (k : Nat) (h : step s = .next t) : core.run (k + 1) s = core.run k t := by
  simp only [Host.Core.run, core, h]

theorem runCommands_cons {i : Instr} {s t : State} (rest : List Instr) (h : exec i s = .next t) :
    runCommands (i :: rest) s = runCommands rest t := by
  simp only [runCommands, h]

/-- As many steps as there are words waiting carry out their commands in order (R24, R50, R160). -/
theorem core_run_encoded (is : List Instr) : ∀ s : State, (∀ i ∈ is, i.wellFormed = true) →
    core.run is.length (s.waiting (is.map encode)) = runCommands is (s.waiting []) := by
  induction is with
  | nil => exact fun _ _ => rfl
  | cons i rest ih =>
    intro s hwf
    obtain ⟨hi, hrest⟩ := List.forall_mem_cons.1 hwf
    obtain ⟨t, ht⟩ := exec_total i s
    have hstep : step (s.waiting ((i :: rest).map encode)) = .next (t.waiting (rest.map encode)) := by
      rw [List.map_cons, step_issued _ (decode_encode hi), exec_waiting _ ht]
    rw [runCommands_cons rest (exec_waiting [] ht), List.length_cons, core_run_succ _ hstep]
    exact ih t hrest

/-- Settles O11: the word of each command is taken, decoded and carried out with the other words waiting behind it, which by
`exec_waiting` makes no difference. -/
theorem portRunsTheProgramInOrder : Obligations.PortRunsTheProgramInOrder :=
  core_run_encoded

end Sys2Proof.Machine
end

section
/-! Channels without sound: no entry on the line, nothing integrated, the last sample 0. Power-on reset leaves such channels
(R30), and of such channels the invariants about the line are plain. -/

namespace Sys2Proof.Machine

/-- Nothing on the line, nothing integrated, the last sample 0. -/
structure Channel.Silent (c : Channel) : Prop where
  prev : c.prev = 0
  acc : c.acc = 0
  ring : c.ring = []

theorem Channel.reset_silent : Channel.reset.Silent := ⟨rfl, rfl, rfl⟩

theorem Channel.Silent.lineRead {c : Channel} (h : c.Silent) (len x : Nat) : c.lineRead len x = 0 := by
  rw [Channel.lineRead, h.ring, Memory.read_nil]

theorem Channel.Silent.partialSum {c : Channel} (h : c.Silent) (len k : Nat) : c.partialSum len k = 0 := by
  rw [Channel.partialSum_eq, h.acc, Finset.sum_eq_zero fun x _ => h.lineRead len x, add_zero]

theorem Channel.Silent.ringOk {c : Channel} (h : c.Silent) (len : Nat) : c.RingOk len := by
  simp [Channel.RingOk, h.ring, Memory.wf]

theorem Channel.Silent.clearAbove {c : Channel} (h : c.Silent) (cfg : Config) (f : Nat) : c.ClearAbove cfg f :=
  fun x _ _ => h.lineRead _ x

theorem Channel.Silent.balanced {c : Channel} (h : c.Silent) (len : Nat) : c.Balanced len := by
  rw [Channel.Balanced, h.partialSum, h.prev, mul_zero]

theorem Channel.Silent.lineBounded {c : Channel} (h : c.Silent) (cfg : Config) (f : Nat) : c.LineBounded cfg f := by
  intro k _
  rw [h.partialSum]
  exact Nat.zero_le _

/-- The invariant of a state with silent channels. -/
theorem State.inv_of_silent {s : State} (hcfg : s.cfg.Valid) (hlock : s.Lockstep) (hrange : s.InRange) (hl : s.left.Silent)
    (hr : s.right.Silent) : s.Inv :=
  ⟨hcfg, hlock, hrange, ⟨hl.ringOk _, hr.ringOk _⟩, ⟨hl.clearAbove _ _, hr.clearAbove _ _⟩,
    ⟨hl.balanced _, hr.balanced _⟩, hl.lineBounded _ _, hr.lineBounded _ _⟩

theorem Channel.reset_inRange (cfg : Config) : Channel.reset.InRange cfg :=
  ⟨Nat.zero_le _, by decide, cfg.lineLen_pos, by decide, Nat.zero_le _⟩

theorem State.reset_inRange : State.reset.InRange :=
  ⟨Channel.reset_inRange _, Channel.reset_inRange _, by simp [State.reset], fun _ => ⟨rfl, rfl, rfl, rfl⟩⟩

/-- Settles O13. -/
theorem resetMeetsTheInvariant : Obligations.ResetMeetsTheInvariant :=
  State.inv_of_silent Config.installed_valid ⟨rfl, rfl, rfl, rfl⟩ State.reset_inRange Channel.reset_silent
    Channel.reset_silent

end Sys2Proof.Machine
end

section
/-! Who writes the bits `active`, `fault_ovf` and the register `factor`: each by cases on what a command can do
(`exec_effect`; R11 to R13). -/

namespace Sys2Proof.Machine

/-- A `START` that is not refused (R80). -/
theorem execStart_accepted {rate : Nat} {s : State} (ha : s.active = false)
    (hr : rateUnusable s.cfg.nativeRate rate = false) :
    exec (.start rate) s =
      .next ((s.construct (ceilDiv (rate * 2 ^ Param.timeBits) s.cfg.nativeRate)).done (boolWord true)) := by
  simp [exec, execStart, ha, hr]

/-- A `STOP` of an active unit (R81). -/
theorem execStop_active {s : State} (ha : s.active = true) : exec .stop s = .next (s.powerOn.done (boolWord true)) := by
  simp [exec, execStop, ha]

/-- Settles O12. -/
theorem powerOnStartAndStopValues : Obligations.PowerOnStartAndStopValues := by
  refine ⟨⟨rfl, rfl, rfl, rfl, rfl, fun _ _ => ⟨rfl, rfl⟩⟩, fun rate s ha hr => ?_, fun s ha => ?_⟩
  · exact ⟨_, execStart_accepted ha hr, rfl, rfl, rfl, rfl, rfl, rfl⟩
  · exact ⟨_, execStop_active ha, rfl, rfl, rfl, rfl, rfl, rfl⟩

/-- Settles O20: of the effects of a command, those that write a register need a unit without fault or an inactive one, but
for `STOP`. -/
theorem faultedStateIsChangedByStopOnly : Obligations.FaultedStateIsChangedByStopOnly := by
  intro i s t ha hf hstop h
  cases exec_effect h with
  | answered r => exact ⟨rfl, rfl, rfl, rfl, rfl, rfl⟩
  | stopped hi => exact absurd hi hstop
  | started _ _ hidle => simp [hidle] at ha
  | overflowed _ _ hok | pushed _ _ _ _ hok | ended _ _ hok | popped _ _ _ hok => simp [hok] at hf

/-- The overflow fault is the one effect that sets `fault_ovf` (R182). -/
theorem Effect.of_fault_set {i : Instr} {s t : State} (h : Effect i s t) (hs : s.faultOvf = false)
    (ht : t.faultOvf = true) : i = .endframe ∨ ∃ l r, i = .push l r := by
  cases h with
  | overflowed hi => exact hi
  | answered | started | stopped | pushed | ended | popped => simp [hs] at ht

/-- Only `STOP` and `START` clear `fault_ovf`, the latter of an inactive unit (R188). -/
theorem Effect.of_fault_cleared {i : Instr} {s t : State} (h : Effect i s t) (hs : s.faultOvf = true)
    (ht : t.faultOvf = false) : i = .stop ∨ s.active = false := by
  cases h with
  | stopped hi => exact .inl hi
  | started _ _ ha => exact .inr ha
  | answered | overflowed | pushed | ended | popped => simp [hs] at ht

/-- Settles O21: an inactive unit in range has no fault for `START` to clear. -/
theorem faultBitWriters : Obligations.FaultBitWriters := by
  intro i s t hrange h
  refine ⟨(exec_effect h).of_fault_set, fun hs ht => ?_⟩
  rcases (exec_effect h).of_fault_cleared hs ht with hi | ha
  · exact hi
  · obtain ⟨-, -, -, hcleared⟩ := hrange
    obtain ⟨-, hok, -⟩ := hcleared ha
    simp [hok] at hs

/-- Settles O24. -/
theorem activeBitWriters : Obligations.ActiveBitWriters := by
  intro i s t h
  cases exec_effect h with
  | started rate hi ha => exact ⟨fun _ _ => ⟨rate, hi⟩, fun h' => by simp [ha] at h'⟩
  | stopped hi ha => exact ⟨fun h' => by simp [ha] at h', fun _ _ => hi⟩
  | answered | overflowed | pushed | ended | popped =>
    exact ⟨fun h₁ h₂ => by simp [h₁] at h₂, fun h₁ h₂ => by simp [h₁] at h₂⟩

/-- `START` alone sets `factor` of a unit that ends up active (R12). -/
theorem Effect.factor_eq {i : Instr} {s t : State} (h : Effect i s t) (hs : s.active = true) (ht : t.active = true) :
    t.factor = s.factor := by
  cases h with
  | started _ _ ha => simp [ha] at hs
  | stopped => simp at ht
  | answered | overflowed | pushed | ended | popped => rfl

/-- Settles O23. -/
theorem factorIsFixedWhileActive : Obligations.FactorIsFixedWhileActive := by
  intro s t h hs ht
  rcases step_cases h with ⟨-, rfl⟩ | ⟨w, rest, -, -, rfl⟩ | ⟨w, rest, i, -, -, h⟩
  · rfl
  · rfl
  · exact (exec_effect h).factor_eq hs ht

end Sys2Proof.Machine
end

section
/-! The codec unit's answers as a function of the operands and the three parameters it reads (R28). -/

namespace Sys2Proof.Machine

/-- Settles O39: the packers read nothing of the state, the note commands the divider table or the key-byte flags. -/
theorem codecDependsOnOperandsAndConfigurationOnly : Obligations.CodecDependsOnOperandsAndConfigurationOnly := by
  intro i s t hi hfnum hslot hhigh
  cases i
  case start | stop | push | endframe | needed | avail | pop | status =>
    exact absurd hi (by simp [isCodecCommand, Instr.opcode])
  case noteFnum | keyOn | keyOff =>
    simp only [exec, execNoteFnum, execKeyOn, execKeyOff, fnumAt, chBits, hfnum, hslot, hhigh]
    split
    · exact ⟨_, rfl, rfl⟩
    · exact ⟨_, rfl, rfl⟩
  all_goals exact ⟨_, rfl, rfl⟩

end Sys2Proof.Machine
end

section
/-! Finished entries and the write cursor: what the end of a frame and a pop make of the logical indices (R21, R31). -/

namespace Sys2Proof.Machine

/-- A pop of an active unit without fault (R91). -/
theorem execPop_accepted {n : Nat} {s : State} (ha : s.active = true) (hf : s.faultOvf = false) :
    exec (.pop n) s = .next ((s.setChannels (s.left.pop s.cfg.lineLen n).2 (s.right.pop s.cfg.lineLen n).2).respond true
      (BitVec.ofNat 32 (min (s.left.popCount n) (s.right.popCount n)))
      (List.zipWith Beat.mk (s.left.pop s.cfg.lineLen n).1 (s.right.pop s.cfg.lineLen n).1)) := by
  simp only [exec, execPop, State.preCheck_normal ha hf]

/-- An entry that a pop does not drain is renumbered down by the number drained, whatever form the line is in (R31, R90). -/
theorem Channel.lineRead_pop_of_lt {len n x : Nat} {c : Channel} (h : x + c.popCount n < len) :
    (c.pop len n).2.lineRead len x = c.lineRead len (x + c.popCount n) := by
  calc (c.pop len n).2.lineRead len x
      = (Channel.drain len (c.popCount n) 0 c).2.lineRead len (x + c.popCount n) := by
        simp only [Channel.lineRead, Channel.ringIndex_pop]
        simp only [Channel.ringIndex, Channel.drain_rd]
        rfl
    _ = c.lineRead len (x + c.popCount n) := Channel.lineRead_drain_other len _ _ _ _ (by omega) h (by omega)

/-- A push leaves every finished entry as it was (R31). -/
theorem Channel.lineRead_push_finished {cfg : Config} {f : Nat} {v : Int} {c : Channel} {x : Nat}
    (hi : c.pushIndex f ≤ Param.capacity) (hx : x < c.avail) :
    (c.push cfg f v).lineRead cfg.lineLen x = c.lineRead cfg.lineLen x := by
  have hindex : c.avail ≤ c.pushIndex f := Nat.le_add_right _ _
  have hlen := cfg.capacity_le_lineLen
  exact Channel.lineRead_push_other hi (by omega) (by omega)

/-- Every effect of a command on an active unit but those of `POP` and `STOP` leaves the finished entries (R31). -/
theorem Effect.lineRead_finished {i : Instr} {s t : State} (h : Effect i s t) (ha : s.active = true) (hstop : i ≠ .stop)
    (hpop : ∀ n, i ≠ .pop n) (x : Nat) :
    (x < s.left.avail → t.left.lineRead s.cfg.lineLen x = s.left.lineRead s.cfg.lineLen x) ∧
    (x < s.right.avail → t.right.lineRead s.cfg.lineLen x = s.right.lineRead s.cfg.lineLen x) := by
  cases h with
  | answered | overflowed => exact ⟨fun _ => rfl, fun _ => rfl⟩
  | started _ _ hidle => simp [hidle] at ha
  | stopped hi => exact absurd hi hstop
  | popped n hi => exact absurd hi (hpop n)
  | pushed _ _ _ _ _ hl hr =>
    exact ⟨fun hx => Channel.lineRead_push_finished hl hx, fun hx => Channel.lineRead_push_finished hr hx⟩
  | ended => exact ⟨fun _ => Channel.lineRead_congr rfl rfl x, fun _ => Channel.lineRead_congr rfl rfl x⟩

/-- Settles O26. -/
theorem finishedEntriesKeepTheirValues : Obligations.FinishedEntriesKeepTheirValues := by
  intro i s t x ha hf hl hr hstop h
  refine ⟨fun hpop => (exec_effect h).lineRead_finished ha hstop hpop x, ?_⟩
  rintro n rfl
  obtain rfl := Host.Outcome.next.inj ((execPop_accepted ha hf).symm.trans h)
  have hlen := s.cfg.lineLen_eq
  exact ⟨fun hx => Channel.lineRead_pop_of_lt (by rw [Channel.popCount]; omega),
    fun hx => Channel.lineRead_pop_of_lt (by rw [Channel.popCount]; omega)⟩

/-- The end of a frame moves the write cursor by the samples it adds (R21). -/
theorem Channel.wr_endFrame (len f : Nat) (c : Channel) : (c.endFrame f).wr len = (c.wr len + c.added f) % len := by
  simp [Channel.wr, Channel.ringIndex, add_assoc]

/-- A pop moves the read cursor and `avail` against each other, and the write cursor not at all (R21). -/
theorem Channel.wr_pop (len n : Nat) (c : Channel) : (c.pop len n).2.wr len = c.wr len := by
  have hk := c.popCount_le n
  rw [Channel.wr, Channel.ringIndex_pop, Channel.pop_avail, Nat.sub_add_cancel hk, Channel.wr]

theorem Channel.wr_eq_add_zero_mod (len : Nat) (c : Channel) : c.wr len = (c.wr len + (c.avail - c.avail)) % len := by
  simp [Channel.wr, Channel.ringIndex]

/-- Settles O33. -/
theorem writeCursorMoves : Obligations.WriteCursorMoves := by
  intro s t ha hf _
  refine ⟨fun h ht => ?_, fun n h => ?_⟩
  · cases exec_effect h with
    | answered => exact ⟨Channel.wr_eq_add_zero_mod _ _, Channel.wr_eq_add_zero_mod _ _⟩
    | overflowed => simp at ht
    | started _ hi | stopped hi | pushed _ _ hi | popped _ hi => simp at hi
    | ended =>
      refine ⟨(Channel.wr_endFrame _ _ _).trans ?_, (Channel.wr_endFrame _ _ _).trans ?_⟩ <;> simp
  · obtain rfl := Host.Outcome.next.inj ((execPop_accepted ha hf).symm.trans h)
    exact ⟨Channel.wr_pop _ _ _, Channel.wr_pop _ _ _⟩

end Sys2Proof.Machine
end

section
/-! Lock-step, the canonical form of the lines and the ranges of the registers: each operation keeps them, so every step
does (R20, R22, R23). -/

namespace Sys2Proof.Machine

/-! ### Lock-step -/

theorem Effect.lockstep {i : Instr} {s t : State} (h : Effect i s t) (hs : s.Lockstep) : t.Lockstep := by
  obtain ⟨htick, hoffset, havail, hrd⟩ := id hs
  cases h with
  | answered | overflowed => exact hs
  | started | stopped => exact ⟨rfl, rfl, rfl, rfl⟩
  | pushed => simp [State.Lockstep, htick, hoffset, havail, hrd]
  | ended => simp [State.Lockstep, Channel.added, Channel.position, htick, hoffset, havail, hrd]
  | popped => simp [State.Lockstep, Channel.popCount, htick, hoffset, havail, hrd]

/-- Settles O40. -/
theorem stepKeepsLockstep : Obligations.StepKeepsLockstep :=
  ⟨⟨rfl, rfl, rfl, rfl⟩, fun _ _ => step_keeps_of_effect (P := State.Lockstep) (fun _ _ h => h) (fun _ _ h => h)
    fun _ _ _ _ _ hs h => h.lockstep hs⟩

/-! ### The canonical form of the lines -/

theorem Effect.ringsWf {i : Instr} {s t : State} (h : Effect i s t) (hs : s.RingsWf) : t.RingsWf := by
  obtain ⟨hl, hr⟩ := id hs
  cases h with
  | answered | overflowed | ended => exact hs
  | started | stopped => exact ⟨Channel.reset_silent.ringOk _, Channel.reset_silent.ringOk _⟩
  | pushed => exact ⟨Channel.push_ringOk hl, Channel.push_ringOk hr⟩
  | popped => exact ⟨Channel.pop_ringOk s.cfg.lineLen_pos _ hl, Channel.pop_ringOk s.cfg.lineLen_pos _ hr⟩

/-- Settles O42. -/
theorem stepKeepsRingsCanonical : Obligations.StepKeepsRingsCanonical :=
  fun _ _ => step_keeps_of_effect (P := State.RingsWf) (fun _ _ h => h) (fun _ _ h => h) fun _ _ _ _ _ hs h => h.ringsWf hs

/-! ### Ranges -/

/-- The factor of a `START` that is not refused is in its legal range (R12, R80). -/
theorem factor_range_of_rate_usable {native rate : Nat} (h : rateUnusable native rate = false) :
    2 ^ 17 ≤ ceilDiv (rate * 2 ^ Param.timeBits) native ∧ ceilDiv (rate * 2 ^ Param.timeBits) native ≤ 2 ^ 47 := by
  simp only [rateUnusable, Bool.or_eq_false_iff, decide_eq_false_iff_not, Nat.not_lt] at h
  obtain ⟨⟨hrate, hhigh⟩, hlow⟩ := h
  rw [Param.maxRatio_eq] at hhigh hlow
  have hnative : 0 < native := by omega
  rw [ceilDiv, Param.timeBits_eq]
  exact ⟨(Nat.le_div_iff_mul_le hnative).2 (by omega),
    Nat.lt_succ_iff.1 ((Nat.div_lt_iff_lt_mul hnative).2 (by omega))⟩

/-- The time since the start of the frame at an accepted push, in units of `2^-32` output samples (R26 (a), R83). -/
theorem Channel.tick_mul_lt_of_pushIndex_le {f : Nat} {c : Channel} (hi : c.pushIndex f ≤ Param.capacity) :
    c.tick * f < 65537 * 2 ^ 32 := by
  simp only [Channel.pushIndex, wholeSamples, Channel.position, Param.timeBits_eq, Param.capacity_eq] at hi
  omega

/-- The tick of an accepted push is below R23's bound (R26 (a)). -/
theorem Channel.tick_lt_of_pushIndex_le {f : Nat} {c : Channel} (hf : 2 ^ 17 ≤ f) (hi : c.pushIndex f ≤ Param.capacity) :
    c.tick < (Param.capacity + 1) * Param.maxRatio := by
  have hpos := Channel.tick_mul_lt_of_pushIndex_le hi
  have hmul : c.tick * 2 ^ 17 ≤ c.tick * f := Nat.mul_le_mul_left _ hf
  rw [Param.capacity_eq, Param.maxRatio_eq]
  omega

/-- A push accepted one tick below R23's bound has the smallest factor (log entry 8). -/
theorem Channel.factor_eq_of_last_tick {f : Nat} {c : Channel} (hf : 2 ^ 17 ≤ f) (hi : c.pushIndex f ≤ Param.capacity)
    (ht : c.tick + 1 = (65536 + 1) * 32768) : f = 2 ^ 17 := by
  have hpos := Channel.tick_mul_lt_of_pushIndex_le hi
  rw [show c.tick = 2147516415 by omega] at hpos
  omega

theorem Channel.InRange.push {cfg : Config} {f : Nat} {v : Int} {c : Channel} (h : c.InRange cfg) (hf : 2 ^ 17 ≤ f)
    (hv : -(2 ^ 15) ≤ v ∧ v < 2 ^ 15) (hi : c.pushIndex f ≤ Param.capacity) : (c.push cfg f v).InRange cfg := by
  obtain ⟨havail, hoffset, hrd, -, -⟩ := h
  simp only [Channel.InRange, Channel.push_avail, Channel.push_offset, Channel.push_rd, Channel.push_prev, Channel.push_tick]
  exact ⟨havail, hoffset, hrd, hv, Channel.tick_lt_of_pushIndex_le hf hi⟩

theorem Channel.InRange.endFrame {cfg : Config} {f : Nat} {c : Channel} (h : c.InRange cfg)
    (hi : c.avail + c.added f ≤ Param.capacity) : (c.endFrame f).InRange cfg := by
  obtain ⟨-, -, hrd, hprev, -⟩ := h
  exact ⟨hi, Nat.mod_lt _ (by decide), hrd, hprev, Nat.zero_le _⟩

theorem Channel.InRange.pop {cfg : Config} {c : Channel} (h : c.InRange cfg) (n : Nat) :
    (c.pop cfg.lineLen n).2.InRange cfg := by
  obtain ⟨havail, hoffset, -, hprev, htick⟩ := h
  simp only [Channel.InRange, Channel.pop_avail, Channel.pop_offset, Channel.pop_rd, Channel.pop_prev, Channel.pop_tick]
  exact ⟨(Nat.sub_le _ _).trans havail, hoffset, Nat.mod_lt _ cfg.lineLen_pos, hprev, htick⟩

/-- What an effect keeps of the ranges while the unit stays active with its factor. -/
theorem State.InRange.of_channels {s t : State} (hs : s.InRange) (ha : s.active = true) (hta : t.active = s.active)
    (hfactor : t.factor = s.factor) (hl : t.left.InRange t.cfg) (hr : t.right.InRange t.cfg) : t.InRange := by
  obtain ⟨-, -, hrange, -⟩ := hs
  refine ⟨hl, hr, fun _ => by rw [hfactor]; exact hrange ha, fun h => ?_⟩
  simp [hta, ha] at h

theorem Effect.inRange {w : CmdWord} {i : Instr} {s t : State} (hd : decode w = .command i) (h : Effect i s t)
    (hs : s.InRange) : t.InRange := by
  obtain ⟨hl, hr, hfactor, -⟩ := id hs
  cases h with
  | answered => exact hs
  | overflowed _ ha => exact hs.of_channels ha rfl rfl hl hr
  | started rate _ _ hrate =>
    exact ⟨Channel.reset_inRange _, Channel.reset_inRange _, fun _ => factor_range_of_rate_usable hrate, by simp⟩
  | stopped => exact ⟨Channel.reset_inRange _, Channel.reset_inRange _, by simp, fun _ => ⟨rfl, rfl, rfl, rfl⟩⟩
  | pushed l r hi ha _ hil hir =>
    obtain ⟨hvl, hvr⟩ := decode_push_fits (hi ▸ hd)
    exact hs.of_channels ha rfl rfl (hl.push (hfactor ha).1 hvl hil) (hr.push (hfactor ha).1 hvr hir)
  | ended _ ha _ hil hir => exact hs.of_channels ha rfl rfl (hl.endFrame hil) (hr.endFrame hir)
  | popped n _ ha => exact hs.of_channels ha rfl rfl (hl.pop n) (hr.pop n)

/-- Settles O41. -/
theorem stepKeepsRanges : Obligations.StepKeepsRanges :=
  fun _ _ => step_keeps_of_effect (P := State.InRange) (fun _ _ h => h) (fun _ _ h => h) fun _ _ _ _ hd hs h => h.inRange hd hs

/-! ### The strict tick bound -/

/-- Both tick counters below the bound, as R23 words it. -/
abbrev State.TicksStrict (s : State) : Prop :=
  s.left.tick < (Param.capacity + 1) * Param.maxRatio ∧ s.right.tick < (Param.capacity + 1) * Param.maxRatio

/-- Every effect keeps the strict tick bound but a push one tick below it, whose factor is then the smallest (log entry 8). -/
theorem Effect.ticksStrict_or {i : Instr} {s t : State} (h : Effect i s t) (hs : s.InRange) (ht : s.TicksStrict) :
    t.TicksStrict ∨ (s.factor = 2 ^ 17 ∧ (s.left.tick + 1 = (65536 + 1) * 32768 ∨ s.right.tick + 1 = (65536 + 1) * 32768) ∧
      ∃ l r, i = .push l r) := by
  have hzero : 0 < (Param.capacity + 1) * Param.maxRatio := by decide
  cases h with
  | answered | overflowed => exact .inl ht
  | started | stopped | ended => exact .inl ⟨hzero, hzero⟩
  | popped => exact .inl (by simpa [State.TicksStrict] using ht)
  | pushed l r hi ha _ hil hir =>
    obtain ⟨-, -, hfactor, -⟩ := hs
    obtain ⟨hfactor, -⟩ := hfactor ha
    by_cases hl : s.left.tick + 1 = (65536 + 1) * 32768
    · exact .inr ⟨Channel.factor_eq_of_last_tick hfactor hil hl, .inl hl, l, r, hi⟩
    by_cases hr : s.right.tick + 1 = (65536 + 1) * 32768
    · exact .inr ⟨Channel.factor_eq_of_last_tick hfactor hir hr, .inr hr, l, r, hi⟩
    · refine .inl ?_
      simp only [State.TicksStrict, State.done_left, State.done_right, State.setChannels_left, State.setChannels_right,
        Channel.push_tick, Param.capacity_eq, Param.maxRatio_eq] at ht ⊢
      omega

/-- Settles O58. -/
theorem onlyTheLastPushLeavesTheWordedRanges : Obligations.OnlyTheLastPushLeavesTheWordedRanges := by
  refine ⟨⟨State.reset_inRange, by decide, by decide⟩, ?_⟩
  rintro s t ⟨hs, hticks⟩ h
  have ht : t.InRange := stepKeepsRanges s t hs h
  rcases step_cases h with ⟨-, rfl⟩ | ⟨w, rest, -, -, rfl⟩ | ⟨w, rest, i, hp, hd, h⟩
  · exact .inl ⟨hs, hticks⟩
  · exact .inl ⟨ht, hticks⟩
  · rcases (exec_effect h).ticksStrict_or hs hticks with hstrict | ⟨hfactor, hlast, l, r, rfl⟩
    · exact .inl ⟨ht, hstrict⟩
    · exact .inr ⟨hfactor, hlast, w, rest, l, r, hp, hd⟩

/-- The smallest factor with both channels silent and their tick counters one below R23's bound (log entry 8). -/
def State.beforeLastPush : State :=
  { State.reset with
    cfg := Config.linear 4, active := true, factor := 2 ^ 17
    left := { Channel.reset with tick := 2147516415 }
    right := { Channel.reset with tick := 2147516415 } }

theorem State.beforeLastPush_inv : State.beforeLastPush.Inv :=
  State.inv_of_silent (Config.linear_valid (by decide) (by decide)) (by decide) (by decide) ⟨rfl, rfl, rfl⟩ ⟨rfl, rfl, rfl⟩

/-- Refutes O47: at the smallest factor R83 accepts the push at one tick below the bound, and R84 counts it. -/
theorem not_strictTickBoundSurvivesEveryPush : ¬ Obligations.StrictTickBoundSurvivesEveryPush := by
  intro h
  have hpush := execPush_accepted (l := 0) (r := 0) (s := State.beforeLastPush) rfl rfl (by decide) (by decide)
  have hlt := h 0 0 _ _ State.beforeLastPush_inv (by decide) hpush
  rw [State.done_left, State.setChannels_left, Channel.push_tick] at hlt
  exact absurd hlt (by decide)

end Sys2Proof.Machine
end

section
/-! The bound on partial sums of the line behind R26 (c) and (d). A push adds to a partial sum in one of three ways: not at
all below its position, all of `UNIT * d` from `W` entries beyond it on, and in between a part of at most `2^33`, for which the
count of partial pushes grows by one. -/

namespace Sys2Proof.Machine

/-! ### The present time and the count of partial pushes -/

theorem ceilDiv_le_ceilDiv {a b : Nat} (h : a ≤ b) (f : Nat) : ceilDiv a f ≤ ceilDiv b f :=
  Nat.div_le_div_right (Nat.sub_le_sub_right (Nat.add_le_add_right h f) 1)

theorem ceilDiv_add_self (a : Nat) {f : Nat} (hf : 0 < f) : ceilDiv (a + f) f = ceilDiv a f + 1 := by
  rw [ceilDiv, ceilDiv, show a + f + f - 1 = a + f - 1 + f by omega, Nat.add_div_right _ hf]

/-- A push begins at the line index of the present time (R83). -/
theorem Channel.pushIndex_eq_now_div (f : Nat) (c : Channel) : c.pushIndex f = c.now f / 2 ^ 32 := by
  simp only [Channel.pushIndex, wholeSamples, Channel.now, Param.timeBits_eq]
  omega

theorem Channel.now_push (cfg : Config) (f : Nat) (v : Int) (c : Channel) : (c.push cfg f v).now f = c.now f + f := by
  simp only [Channel.now, Channel.position, Channel.push_avail, Channel.push_tick, Channel.push_offset]
  ring

/-- The end of a frame leaves the present time where it is (R85). -/
theorem Channel.now_endFrame (f : Nat) (c : Channel) : (c.endFrame f).now f = c.now f := by
  simp only [Channel.now, Channel.position, Channel.endFrame_avail, Channel.endFrame_tick, Channel.endFrame_offset,
    Channel.added, wholeSamples, fractionOf, Param.timeBits_eq]
  omega

theorem Channel.now_pop (len n f : Nat) (c : Channel) :
    (c.pop len n).2.now f + c.popCount n * 2 ^ 32 = c.now f := by
  have hk := c.popCount_le n
  simp only [Channel.now, Channel.position, Channel.pop_avail, Channel.pop_tick, Channel.pop_offset, Param.timeBits_eq]
  omega

theorem Channel.partialPushes_le_push (cfg : Config) (f : Nat) (v : Int) (c : Channel) (k : Nat) :
    c.partialPushes cfg f k ≤ (c.push cfg f v).partialPushes cfg f k := by
  rw [Channel.partialPushes, Channel.partialPushes, Channel.now_push]
  exact min_le_min_right _ (ceilDiv_le_ceilDiv (by omega) f)

/-- A push counts as one more partial push of the line indices that it reaches in part. -/
theorem Channel.partialPushes_lt_push {cfg : Config} {f : Nat} {c : Channel} {k : Nat} (hf : 0 < f) (v : Int)
    (hlow : c.pushIndex f < k) (hhigh : k < c.pushIndex f + cfg.taps) :
    c.partialPushes cfg f k + 1 ≤ (c.push cfg f v).partialPushes cfg f k := by
  rw [Channel.pushIndex_eq_now_div] at hlow hhigh
  rw [Channel.partialPushes, Channel.partialPushes, Channel.now_push, Param.timeBits_eq,
    show c.now f + f + (cfg.taps - 1) * 2 ^ 32 - k * 2 ^ 32 = c.now f + (cfg.taps - 1) * 2 ^ 32 - k * 2 ^ 32 + f by omega,
    ceilDiv_add_self _ hf]
  have hreached : ceilDiv (c.now f + (cfg.taps - 1) * 2 ^ 32 - k * 2 ^ 32) f ≤ ceilDiv ((cfg.taps - 1) * 2 ^ 32) f :=
    ceilDiv_le_ceilDiv (by omega) f
  omega

theorem Channel.partialPushes_endFrame (cfg : Config) (f : Nat) (c : Channel) (k : Nat) :
    (c.endFrame f).partialPushes cfg f k = c.partialPushes cfg f k := by
  rw [Channel.partialPushes, Channel.partialPushes, Channel.now_endFrame]

/-- A pop renumbers the counts of partial pushes with the line. -/
theorem Channel.partialPushes_pop (cfg : Config) (len n f : Nat) (c : Channel) (k : Nat) :
    (c.pop len n).2.partialPushes cfg f k = c.partialPushes cfg f (k + c.popCount n) := by
  have hnow := c.now_pop len n f
  rw [Channel.partialPushes, Channel.partialPushes, Param.timeBits_eq,
    show (c.pop len n).2.now f + (cfg.taps - 1) * 2 ^ 32 - k * 2 ^ 32 =
      c.now f + (cfg.taps - 1) * 2 ^ 32 - (k + c.popCount n) * 2 ^ 32 by omega]

/-! ### Partial sums -/

theorem natAbs_unit_mul_le {v : Int} (hv : -(2 ^ 15) ≤ v ∧ v < 2 ^ 15) : ((Param.unit : Int) * v).natAbs ≤ 2 ^ 30 := by
  rw [Param.unit_eq]
  omega

/-- Entries that read 0 add nothing to a partial sum. -/
theorem Channel.partialSum_eq_of_zero {len : Nat} {c : Channel} {k m : Nat} (hkm : k ≤ m)
    (hzero : ∀ x, k ≤ x → x < m → c.lineRead len x = 0) : c.partialSum len m = c.partialSum len k := by
  induction m, hkm using Nat.le_induction with
  | base => rfl
  | succ m hkm ih =>
    rw [Channel.partialSum_succ, hzero m hkm (Nat.lt_succ_self m), add_zero,
      ih fun x hx hxm => hzero x hx (Nat.lt_succ_of_lt hxm)]

/-- Beyond the reach of every push so far a partial sum is `UNIT` times the last sample (R43 (a), R94). -/
theorem Channel.partialSum_above {cfg : Config} {f : Nat} {c : Channel} (hclear : c.ClearAbove cfg f)
    (hbal : c.Balanced cfg.lineLen) {k : Nat} (hk : k ≤ cfg.lineLen) (habove : c.pushIndex f + cfg.taps ≤ k) :
    c.partialSum cfg.lineLen k = Param.unit * c.prev := by
  rw [← hbal]
  exact (Channel.partialSum_eq_of_zero hk fun x hkx hx => hclear x hx (habove.trans hkx)).symm

/-- The part of a push that a partial sum takes in is at most `2^33` (R26 (c), R43 (b)). -/
theorem natAbs_taps_mul_le {cfg : Config} (hcfg : cfg.Valid) (pos n : Nat) {v u : Int} (hv : -(2 ^ 15) ≤ v ∧ v < 2 ^ 15)
    (hu : -(2 ^ 15) ≤ u ∧ u < 2 ^ 15) :
    (((kernelRow cfg (phaseOf pos)).take n).sum * (v - u)).natAbs ≤ 2 ^ 33 := by
  have htaps := kernelRow_take_le hcfg pos n
  rw [Param.unit_eq] at htaps
  have hdelta : (v - u).natAbs ≤ 2 ^ 16 := by omega
  calc (((kernelRow cfg (phaseOf pos)).take n).sum * (v - u)).natAbs
      = ((kernelRow cfg (phaseOf pos)).take n).sum.natAbs * (v - u).natAbs := Int.natAbs_mul _ _
    _ ≤ (4 * 32768) * 2 ^ 16 := Nat.mul_le_mul htaps hdelta
    _ = 2 ^ 33 := by norm_num

/-! ### Each operation keeps the bound -/

theorem Channel.LineBounded.push {cfg : Config} {f : Nat} {v : Int} {c : Channel} (h : c.LineBounded cfg f)
    (hcfg : cfg.Valid) (hf : 0 < f) (hwf : Memory.wf c.ring = true) (hi : c.pushIndex f ≤ Param.capacity)
    (hprev : -(2 ^ 15) ≤ c.prev ∧ c.prev < 2 ^ 15) (hv : -(2 ^ 15) ≤ v ∧ v < 2 ^ 15) (hclear : c.ClearAbove cfg f)
    (hbal : c.Balanced cfg.lineLen) : (c.push cfg f v).LineBounded cfg f := by
  intro k hk
  have hbound := h k hk
  have hcount := c.partialPushes_le_push cfg f v k
  rw [Channel.partialSum_push hwf hi hk]
  rcases Nat.lt_or_ge (c.pushIndex f) k with hlow | hbelow
  · rcases Nat.lt_or_ge k (c.pushIndex f + cfg.taps) with hhigh | habove
    · have hpart := natAbs_taps_mul_le hcfg (c.position f) (k - c.pushIndex f) hv hprev
      have hmore := Channel.partialPushes_lt_push hf v hlow hhigh
      have hsum := Int.natAbs_add_le (c.partialSum cfg.lineLen k)
        (((kernelRow cfg (phaseOf (c.position f))).take (k - c.pushIndex f)).sum * (v - c.prev))
      omega
    · rw [List.take_of_length_le (by rw [kernelRow_length]; omega), kernelRow_sum hcfg,
        Channel.partialSum_above hclear hbal hk habove, ← mul_add, add_sub_cancel]
      exact (natAbs_unit_mul_le hv).trans (Nat.le_add_right _ _)
  · rw [Nat.sub_eq_zero_of_le hbelow, List.take_zero, List.sum_nil, zero_mul, add_zero]
    omega

theorem Channel.LineBounded.endFrame {cfg : Config} {f : Nat} {c : Channel} (h : c.LineBounded cfg f) :
    (c.endFrame f).LineBounded cfg f := by
  intro k hk
  rw [Channel.partialPushes_endFrame, Channel.partialSum_congr (c.endFrame_acc f) (c.endFrame_ring f) (c.endFrame_rd f)]
  exact h k hk

theorem Channel.LineBounded.pop {cfg : Config} {f : Nat} {c : Channel} (h : c.LineBounded cfg f) (n : Nat)
    (hwf : Memory.wf c.ring = true) (havail : c.avail ≤ Param.capacity) (hprev : -(2 ^ 15) ≤ c.prev ∧ c.prev < 2 ^ 15)
    (hbal : c.Balanced cfg.lineLen) : (c.pop cfg.lineLen n).2.LineBounded cfg f := by
  intro k hk
  have hcount : c.popCount n ≤ cfg.lineLen := (c.popCount_le n).trans (havail.trans cfg.capacity_le_lineLen)
  rw [Channel.partialSum_pop hwf hcount hk, Channel.partialPushes_pop]
  rcases Nat.le_total (k + c.popCount n) cfg.lineLen with hin | hout
  · rw [Nat.min_eq_left hin]
    exact h _ hin
  · rw [Nat.min_eq_right hout, hbal]
    exact (natAbs_unit_mul_le hprev).trans (Nat.le_add_right _ _)

theorem Effect.lineBounded {w : CmdWord} {i : Instr} {s t : State} (hd : decode w = .command i) (h : Effect i s t)
    (hs : s.Inv) : t.LineBounded := by
  obtain ⟨hcfg, -, hrange, ⟨⟨hwfl, -⟩, ⟨hwfr, -⟩⟩, ⟨hclearl, hclearr⟩, ⟨hball, hbalr⟩, hl, hr⟩ := hs
  obtain ⟨⟨havaill, -, -, hprevl, -⟩, ⟨havailr, -, -, hprevr, -⟩, hfactor, -⟩ := hrange
  cases h with
  | answered | overflowed => exact ⟨hl, hr⟩
  | started | stopped => exact ⟨Channel.reset_silent.lineBounded _ _, Channel.reset_silent.lineBounded _ _⟩
  | pushed l r hi ha _ hil hir =>
    obtain ⟨hvl, hvr⟩ := decode_push_fits (hi ▸ hd)
    have hf : 0 < s.factor := lt_of_lt_of_le (by decide) (hfactor ha).1
    exact ⟨hl.push hcfg hf hwfl hil hprevl hvl hclearl hball, hr.push hcfg hf hwfr hir hprevr hvr hclearr hbalr⟩
  | ended => exact ⟨hl.endFrame, hr.endFrame⟩
  | popped n => exact ⟨hl.pop n hwfl havaill hprevl hball, hr.pop n hwfr havailr hprevr hbalr⟩

/-- Settles O45. -/
theorem stepKeepsLineBounds : Obligations.StepKeepsLineBounds := by
  intro s t hs h
  have hbounded : s.LineBounded := by
    obtain ⟨-, -, -, -, -, -, hbounded⟩ := hs
    exact hbounded
  rcases step_cases h with ⟨-, rfl⟩ | ⟨w, rest, -, -, rfl⟩ | ⟨w, rest, i, -, hd, h⟩
  · exact hbounded
  · exact hbounded
  · exact (exec_effect h).lineBounded hd hs

/-! ### The stated widths -/

/-- With at most 64 taps and a factor in range, fewer than `2^22` pushes can have reached a partial sum in part (R26 (c)). -/
theorem Channel.partialPushes_lt {cfg : Config} {f : Nat} (htaps : cfg.taps ≤ 64) (hf : f = 0 ∨ 2 ^ 17 ≤ f) (c : Channel)
    (k : Nat) : c.partialPushes cfg f k < 2 ^ 22 := by
  have hceil : ceilDiv ((cfg.taps - 1) * 2 ^ 32) f ≤ 2 ^ 21 := by
    rcases hf with rfl | hf
    · simp [ceilDiv]
    · rw [ceilDiv, Nat.div_le_iff_le_mul_add_pred (by omega)]
      omega
  rw [Channel.partialPushes, Param.timeBits_eq]
  omega

theorem Channel.LineBounded.natAbs_partialSum_lt {cfg : Config} {f : Nat} {c : Channel} (h : c.LineBounded cfg f)
    (htaps : cfg.taps ≤ 64) (hf : f = 0 ∨ 2 ^ 17 ≤ f) {k : Nat} (hk : k ≤ cfg.lineLen) :
    (c.partialSum cfg.lineLen k).natAbs < 2 ^ 56 := by
  have hcount := c.partialPushes_lt htaps hf k
  have hbound := h k hk
  omega

/-- A line entry is the difference of two partial sums, so it keeps within twice their bound (R26 (d)). -/
theorem Channel.LineBounded.natAbs_lineRead_lt {cfg : Config} {f : Nat} {c : Channel} (h : c.LineBounded cfg f)
    (htaps : cfg.taps ≤ 64) (hf : f = 0 ∨ 2 ^ 17 ≤ f) {x : Nat} (hx : x < cfg.lineLen) :
    (c.lineRead cfg.lineLen x).natAbs < 2 ^ 57 := by
  have hbelow := h.natAbs_partialSum_lt htaps hf hx.le
  have habove := h.natAbs_partialSum_lt htaps hf (Nat.succ_le_of_lt hx)
  rw [Channel.partialSum_succ] at habove
  omega

/-- Settles O46. -/
theorem invariantFitsTheStatedWidths : Obligations.InvariantFitsTheStatedWidths := by
  rintro s ⟨⟨-, ⟨-, htaps⟩, -, -⟩, -, ⟨hl, hr, hactive, hcleared⟩, -, -, -, hboundl, hboundr⟩
  have hfactor : s.factor = 0 ∨ 2 ^ 17 ≤ s.factor ∧ s.factor ≤ 2 ^ 47 := by
    cases ha : s.active
    · exact .inl (hcleared ha).1
    · exact .inr (hactive ha)
  refine ⟨by omega, fun c hc => ?_⟩
  obtain ⟨hrange, hbound⟩ : c.InRange s.cfg ∧ c.LineBounded s.cfg s.factor := by
    rcases hc with rfl | rfl
    · exact ⟨hl, hboundl⟩
    · exact ⟨hr, hboundr⟩
  obtain ⟨havail, hoffset, hrd, hprev, htick⟩ := hrange
  have hf : s.factor = 0 ∨ 2 ^ 17 ≤ s.factor := hfactor.imp_right And.left
  have hacc := hbound.natAbs_partialSum_lt htaps hf (Nat.zero_le _)
  rw [Channel.partialSum_zero] at hacc
  rw [Param.capacity_eq] at havail htick
  rw [Param.maxRatio_eq] at htick
  rw [Param.timeBits_eq] at hoffset
  rw [Config.lineLen_eq] at hrd
  refine ⟨hprev, by omega, hoffset, by omega, by omega, by omega, fun x hx => ?_⟩
  have hentry := hbound.natAbs_lineRead_lt htaps hf hx
  omega

end Sys2Proof.Machine
end

section
/-! Occupancy of the lines (R42): the position at which the next push begins only moves up the line, or down together with
it, and what a push writes ends `W` entries above it. -/

namespace Sys2Proof.Machine

/-! ### The position of the next push -/

theorem Channel.pushIndex_le_push (cfg : Config) (f : Nat) (v : Int) (c : Channel) :
    c.pushIndex f ≤ (c.push cfg f v).pushIndex f := by
  rw [Channel.pushIndex_eq_now_div, Channel.pushIndex_eq_now_div, Channel.now_push]
  exact Nat.div_le_div_right (Nat.le_add_right _ _)

theorem Channel.pushIndex_endFrame (f : Nat) (c : Channel) : (c.endFrame f).pushIndex f = c.pushIndex f := by
  rw [Channel.pushIndex_eq_now_div, Channel.now_endFrame, ← Channel.pushIndex_eq_now_div]

theorem Channel.pushIndex_pop (len n f : Nat) (c : Channel) :
    (c.pop len n).2.pushIndex f + c.popCount n = c.pushIndex f := by
  rw [Channel.pushIndex_eq_now_div, Channel.pushIndex_eq_now_div, ← c.now_pop len n f,
    Nat.add_mul_div_right _ _ (by decide)]

/-- Between frames a push begins at the write cursor, for what the last frame carried over is less than a sample (R85). -/
theorem Channel.pushIndex_of_tick_zero {f : Nat} {c : Channel} (ht : c.tick = 0) (ho : c.offset < 2 ^ Param.timeBits) :
    c.pushIndex f = c.avail := by
  rw [Channel.pushIndex, Channel.position, ht, zero_mul, zero_add, wholeSamples, Nat.div_eq_of_lt ho, add_zero]

/-! ### Each operation keeps the line clear above -/

theorem Channel.ClearAbove.push {cfg : Config} {f : Nat} {c : Channel} (h : c.ClearAbove cfg f) (v : Int)
    (hi : c.pushIndex f ≤ Param.capacity) : (c.push cfg f v).ClearAbove cfg f := by
  intro x hx habove
  have hbefore : c.pushIndex f + cfg.taps ≤ x := (Nat.add_le_add_right (c.pushIndex_le_push cfg f v) _).trans habove
  rw [Channel.lineRead_push_other hi hx (.inr hbefore)]
  exact h x hx hbefore

theorem Channel.ClearAbove.endFrame {cfg : Config} {f : Nat} {c : Channel} (h : c.ClearAbove cfg f) :
    (c.endFrame f).ClearAbove cfg f := by
  intro x hx habove
  rw [Channel.pushIndex_endFrame] at habove
  rw [Channel.lineRead_congr (c.endFrame_ring f) (c.endFrame_rd f)]
  exact h x hx habove

/-- A pop renumbers the clear entries with the position, and the entries that re-enter at the top were cleared by it (R90). -/
theorem Channel.ClearAbove.pop {cfg : Config} {f : Nat} {c : Channel} (h : c.ClearAbove cfg f) (n : Nat)
    (hwf : Memory.wf c.ring = true) (havail : c.avail ≤ Param.capacity) :
    (c.pop cfg.lineLen n).2.ClearAbove cfg f := by
  intro x hx habove
  have hcount : c.popCount n ≤ cfg.lineLen := (c.popCount_le n).trans (havail.trans cfg.capacity_le_lineLen)
  have hindex := c.pushIndex_pop cfg.lineLen n f
  rw [Channel.lineRead_pop hwf hcount hx]
  split
  · next hin => exact h _ hin (by omega)
  · rfl

theorem Effect.occupied {i : Instr} {s t : State} (h : Effect i s t) (hrange : s.InRange) (hwf : s.RingsWf)
    (hs : s.Occupied) : t.Occupied := by
  obtain ⟨⟨havaill, -⟩, ⟨havailr, -⟩, -, -⟩ := hrange
  obtain ⟨⟨hwfl, -⟩, ⟨hwfr, -⟩⟩ := hwf
  obtain ⟨hl, hr⟩ := id hs
  cases h with
  | answered | overflowed => exact hs
  | started | stopped => exact ⟨Channel.reset_silent.clearAbove _ _, Channel.reset_silent.clearAbove _ _⟩
  | pushed l r _ _ _ hil hir => exact ⟨hl.push l hil, hr.push r hir⟩
  | ended => exact ⟨hl.endFrame, hr.endFrame⟩
  | popped n => exact ⟨hl.pop n hwfl havaill, hr.pop n hwfr havailr⟩

/-- With no tick since the last frame the line is clear from `avail + W` on (R42). -/
theorem Channel.ClearAbove.between_frames {cfg : Config} {f : Nat} {c : Channel} (h : c.ClearAbove cfg f)
    (hrange : c.InRange cfg) {x : Nat} (hx : x < cfg.lineLen) (ht : c.tick = 0) (habove : c.avail + cfg.taps ≤ x) :
    c.lineRead cfg.lineLen x = 0 := by
  obtain ⟨-, hoffset, -⟩ := hrange
  exact h x hx (by rwa [Channel.pushIndex_of_tick_zero ht hoffset])

/-- Settles O43. -/
theorem stepKeepsOccupancy : Obligations.StepKeepsOccupancy := by
  refine ⟨fun s t hrange hwf hs h => ?_, fun s x ⟨hrangel, hranger, _⟩ ⟨hl, hr⟩ hx => ?_⟩
  · rcases step_cases h with ⟨-, rfl⟩ | ⟨w, rest, -, -, rfl⟩ | ⟨w, rest, i, -, -, h⟩
    · exact hs
    · exact hs
    · exact (exec_effect h).occupied hrange hwf hs
  · exact ⟨hl.between_frames hrangel hx, hr.between_frames hranger hx⟩

end Sys2Proof.Machine
end

section
/-! The balance of a channel: by unity gain (R43 (a)) an accepted push puts `UNIT * d` on the line, all of it within the line,
and a pop only moves entries from the line into the integrator (R90). -/

namespace Sys2Proof.Machine

/-- The whole line takes in every tap of an accepted push, so by unity gain it grows by `UNIT` times the delta (R43, R83). -/
theorem Channel.partialSum_lineLen_push {cfg : Config} {f : Nat} {v : Int} {c : Channel} (hcfg : cfg.Valid)
    (hwf : Memory.wf c.ring = true) (hi : c.pushIndex f ≤ Param.capacity) :
    (c.push cfg f v).partialSum cfg.lineLen cfg.lineLen =
      c.partialSum cfg.lineLen cfg.lineLen + Param.unit * (v - c.prev) := by
  have hroom : (kernelRow cfg (phaseOf (c.position f))).length ≤ cfg.lineLen - c.pushIndex f := by
    rw [kernelRow_length, Config.lineLen]
    omega
  rw [Channel.partialSum_push hwf hi le_rfl, List.take_of_length_le hroom, kernelRow_sum hcfg]

theorem Channel.Balanced.push {cfg : Config} {f : Nat} {c : Channel} (h : c.Balanced cfg.lineLen) (v : Int)
    (hcfg : cfg.Valid) (hwf : Memory.wf c.ring = true) (hi : c.pushIndex f ≤ Param.capacity) :
    (c.push cfg f v).Balanced cfg.lineLen := by
  rw [Channel.Balanced, Channel.partialSum_lineLen_push hcfg hwf hi, h, Channel.push_prev, ← mul_add, add_sub_cancel]

theorem Channel.Balanced.endFrame {len : Nat} {c : Channel} (h : c.Balanced len) (f : Nat) :
    (c.endFrame f).Balanced len := by
  rw [Channel.Balanced, Channel.partialSum_congr (c.endFrame_acc f) (c.endFrame_ring f) (c.endFrame_rd f), h,
    Channel.endFrame_prev]

theorem Channel.Balanced.pop {cfg : Config} {c : Channel} (h : c.Balanced cfg.lineLen) (n : Nat)
    (hwf : Memory.wf c.ring = true) (havail : c.avail ≤ Param.capacity) :
    (c.pop cfg.lineLen n).2.Balanced cfg.lineLen := by
  have hcount : c.popCount n ≤ cfg.lineLen := (c.popCount_le n).trans (havail.trans cfg.capacity_le_lineLen)
  rw [Channel.Balanced, Channel.partialSum_pop hwf hcount le_rfl, Nat.min_eq_right (Nat.le_add_right _ _), h,
    Channel.pop_prev]

theorem Effect.balanced {i : Instr} {s t : State} (h : Effect i s t) (hcfg : s.cfg.Valid) (hrange : s.InRange)
    (hwf : s.RingsWf) (hs : s.Balanced) : t.Balanced := by
  obtain ⟨⟨havaill, -⟩, ⟨havailr, -⟩, -, -⟩ := hrange
  obtain ⟨⟨hwfl, -⟩, ⟨hwfr, -⟩⟩ := hwf
  obtain ⟨hl, hr⟩ := id hs
  cases h with
  | answered | overflowed => exact hs
  | started | stopped => exact ⟨Channel.reset_silent.balanced _, Channel.reset_silent.balanced _⟩
  | pushed l r _ _ _ hil hir => exact ⟨hl.push l hcfg hwfl hil, hr.push r hcfg hwfr hir⟩
  | ended => exact ⟨hl.endFrame _, hr.endFrame _⟩
  | popped n => exact ⟨hl.pop n hwfl havaill, hr.pop n hwfr havailr⟩

/-- Settles O44. -/
theorem stepKeepsBalance : Obligations.StepKeepsBalance := by
  intro s t hcfg hrange hwf hs h
  rcases step_cases h with ⟨-, rfl⟩ | ⟨w, rest, -, -, rfl⟩ | ⟨w, rest, i, -, -, h⟩
  · exact hs
  · exact hs
  · exact (exec_effect h).balanced hcfg hrange hwf hs

end Sys2Proof.Machine
end

section
/-! The decoder and its inverse (R60, R63 to R69): which opcodes it rejects, and what is decoded is well formed, has the
word's opcode and holds the low bits of the word's operand that its format uses. -/

namespace Sys2Proof

/-! ### Command words and their fields -/

theorem commandWord_fields (w : CmdWord) : commandWord (opField w) (argField w) = w := by
  refine BitVec.eq_of_getLsbD_eq fun i hi => ?_
  rcases Nat.lt_or_ge i 32 with h | h
  · simp [commandWord, opField, argField, hi, h]
  · simp [commandWord, opField, argField, hi, h, show i - 32 < 8 by omega, Nat.not_lt.2 h]

theorem commandWord_and (op op' : Byte) (arg arg' : DataWord) :
    commandWord op arg &&& commandWord op' arg' = commandWord (op &&& op') (arg &&& arg') := by
  refine BitVec.eq_of_getLsbD_eq fun i hi => ?_
  rcases Nat.lt_or_ge i 32 with h | h
  · simp [commandWord, hi, h]
  · simp [commandWord, hi, Nat.not_lt.2 h, BitVec.getLsbD_of_ge _ _ h]

/-- A mask that keeps the whole opcode keeps the opcode field and masks the operand (R60). -/
theorem and_commandWord_opcodeMask (w : CmdWord) (mask : DataWord) :
    w &&& commandWord 0xFF mask = commandWord (opField w) (argField w &&& mask) := by
  have hop : opField w &&& 0xFF = opField w := BitVec.and_allOnes
  conv_lhs => rw [← commandWord_fields w]
  rw [commandWord_and, hop]

/-! ### The operand of each format -/

/-- The operand word whose low `n` bits are 1. -/
def lowBits (n : Nat) : DataWord := (BitVec.allOnes n).setWidth 32

theorem getElem_lowBits (n : Nat) {i : Nat} (hi : i < 32) : (lowBits n)[i] = decide (i < n) := by
  simp [lowBits]

/-- Format U uses the whole operand (R64). -/
theorem ofNat_argField (w : CmdWord) : BitVec.ofNat 32 (argField w).toNat = argField w &&& lowBits 32 := by
  have hmask : argField w &&& lowBits 32 = argField w := BitVec.and_allOnes
  rw [hmask, BitVec.ofNat_toNat, BitVec.setWidth_eq]

/-- Format S uses the whole operand (R64). -/
theorem samplesArg_fields (w : CmdWord) :
    samplesArg (leftField w).toInt (rightField w).toInt = argField w &&& lowBits 32 := by
  rw [samplesArg, BitVec.ofInt_toInt, BitVec.ofInt_toInt]
  refine BitVec.eq_of_getLsbD_eq fun i hi => ?_
  rcases Nat.lt_or_ge i 16 with h | h
  · simp [leftField, rightField, argField, getElem_lowBits, hi, h]
  · simp [leftField, rightField, argField, getElem_lowBits, hi, Nat.not_lt.2 h, h, show i - 16 < 16 by omega]

/-- Format B with both bytes uses the low 16 bits (R64). -/
theorem bytesArg_fields (w : CmdWord) : bytesArg (aField w) (bField w) = argField w &&& lowBits 16 := by
  refine BitVec.eq_of_getLsbD_eq fun i hi => ?_
  rcases Nat.lt_or_ge i 8 with h | h
  · simp [bytesArg, aField, bField, argField, getElem_lowBits, hi, h, show i < 16 by omega]
  · simp [bytesArg, aField, bField, argField, getElem_lowBits, hi, h, Nat.not_lt.2 h, show i - 8 < 8 ↔ i < 16 by omega,
      Bool.and_comm]

/-- Format B with `b` alone uses the low 8 bits (R64, R66). -/
theorem bytesArg_bField (w : CmdWord) : bytesArg 0 (bField w) = argField w &&& lowBits 8 := by
  refine BitVec.eq_of_getLsbD_eq fun i hi => ?_
  simp [bytesArg, bField, argField, getElem_lowBits, hi, Bool.and_comm]

/-- `AM_DR` uses `b` and the lowest bit of `a`, the low 9 bits (R65). -/
theorem bytesArg_amField (w : CmdWord) :
    bytesArg (if amField w then 1 else 0) (bField w) = argField w &&& lowBits 9 := by
  have hbit : (if amField w then 1 else 0 : Byte) = (BitVec.ofBool (amField w)).setWidth 8 := by
    cases amField w <;> rfl
  rw [hbit]
  refine BitVec.eq_of_getLsbD_eq fun i hi => ?_
  rcases Nat.lt_trichotomy i 8 with h | rfl | h
  · simp [bytesArg, bField, argField, getElem_lowBits, hi, h, show i < 9 by omega]
  · simp [bytesArg, bField, amField, argField, getElem_lowBits]
  · simp [bytesArg, bField, argField, getElem_lowBits, hi, show ¬ i < 8 by omega, show ¬ i < 9 by omega,
      show i - 8 ≠ 0 by omega]

/-- How many low operand bits the command with this opcode uses (R64 to R66); of no account for an illegal opcode. -/
def operandBits (op : Byte) : Nat :=
  match op.toNat with
  | 0x01 | 0x03 | 0x05 | 0x07 => 32
  | 0x02 | 0x04 | 0x06 | 0x08 => 0
  | 0x10 | 0x12 | 0x13 | 0x15 | 0x18 | 0x1A => 16
  | 0x16 => 9
  | _ => 8

/-- The bits a command uses: its opcode and the low bits of its operand. -/
theorem usedBits_eq (i : Instr) : Machine.usedBits i = commandWord 0xFF (lowBits (operandBits i.opcode)) := by
  cases i <;> simp only [Machine.usedBits, Instr.opcode] <;> decide

theorem and_usedBits (w : CmdWord) (i : Instr) :
    w &&& Machine.usedBits i = commandWord (opField w) (argField w &&& lowBits (operandBits i.opcode)) := by
  rw [usedBits_eq, and_commandWord_opcodeMask]

/-! ### What the decoder gives -/

/-- The opcodes outside the table of R63 (R67). -/
theorem decode_eq_illegal_iff (w : CmdWord) : decode w = .illegalOpcode (opField w) ↔
    ((opField w).toNat = 0 ∨ (9 ≤ (opField w).toNat ∧ (opField w).toNat ≤ 15) ∨ 29 ≤ (opField w).toNat) := by
  unfold decode
  split
  -- The last row of the decoder is the one that rejects: none of the 21 opcodes before it.
  case h_22 =>
    simp only [true_iff, imp_false] at *
    omega
  all_goals next hop => simp [hop]

theorem decode_command_or_illegal (w : CmdWord) :
    (∃ i, decode w = .command i) ∨ decode w = .illegalOpcode (opField w) := by
  unfold decode
  split
  case h_22 => exact .inr rfl
  all_goals exact .inl ⟨_, rfl⟩

/-- Whether a word is a command is in its opcode alone (R60). -/
theorem exists_decode_of_opField_eq {w w' : CmdWord} {i : Instr} (hd : decode w = .command i)
    (hop : opField w' = opField w) : ∃ j, decode w' = .command j := by
  refine (decode_command_or_illegal w').resolve_right fun hill => ?_
  rw [decode_eq_illegal_iff, hop, ← decode_eq_illegal_iff, hd] at hill
  cases hill

theorem opcode_of_decode {w : CmdWord} {i : Instr} (h : decode w = .command i) : i.opcode = opField w := by
  unfold decode at h
  split at h <;> cases h
  all_goals next hop => exact BitVec.eq_of_toNat_eq hop.symm

/-- The operand of a decoded command is the word's operand, cut to the bits that the command uses (R64 to R66). -/
theorem arg_of_decode {w : CmdWord} {i : Instr} (h : decode w = .command i) :
    i.arg = argField w &&& lowBits (operandBits i.opcode) := by
  unfold decode at h
  split at h <;> cases h
  case h_1 | h_5 | h_7 => exact ofNat_argField w
  case h_2 | h_4 | h_6 | h_8 => exact BitVec.and_zero.symm
  case h_3 => exact samplesArg_fields w
  case h_9 | h_11 | h_12 | h_14 | h_17 | h_19 => exact bytesArg_fields w
  case h_15 => exact bytesArg_amField w
  all_goals exact bytesArg_bField w

theorem fitsU32_argField (w : CmdWord) : fitsU32 (argField w).toNat = true :=
  decide_eq_true (argField w).isLt

theorem fitsS16_toInt (v : BitVec 16) : fitsS16 v.toInt = true := by
  simp only [fitsS16, Bool.and_eq_true, decide_eq_true_eq]
  exact ⟨BitVec.le_toInt v, BitVec.toInt_lt⟩

theorem wellFormed_of_decode {w : CmdWord} {i : Instr} (h : decode w = .command i) : i.wellFormed = true := by
  unfold decode at h
  split at h <;> cases h
  case h_1 | h_5 | h_7 => exact fitsU32_argField w
  case h_3 => simp only [Instr.wellFormed, fitsS16_toInt, Bool.and_self]
  all_goals rfl

/-- Encoding a decoded command gives the word with its ignored bits cleared (R66, R69). -/
theorem encode_of_decode {w : CmdWord} {i : Instr} (h : decode w = .command i) : encode i = w &&& Machine.usedBits i := by
  rw [and_usedBits, ← arg_of_decode h, ← opcode_of_decode h, encode]

theorem encode_injective_of_wellFormed {i j : Instr} (hi : i.wellFormed = true) (hj : j.wellFormed = true)
    (h : encode i = encode j) : i = j := by
  have hij : Decoded.command i = .command j := by rw [← decode_encode hi, h, decode_encode hj]
  exact Decoded.command.inj hij

/-- Words that agree on the bits of a command have the same opcode (R60). -/
theorem opField_eq_of_and_usedBits_eq {w w' : CmdWord} {i : Instr}
    (h : w' &&& Machine.usedBits i = w &&& Machine.usedBits i) : opField w' = opField w := by
  rw [and_usedBits, and_usedBits] at h
  simpa only [Laws.opField_commandWord] using congrArg opField h

/-! ### The statements -/

/-- Settles O1: every field of a command word is the part that it was built from. -/
theorem decodeOfEncodeIsTheCommand : Obligations.DecodeOfEncodeIsTheCommand :=
  fun _ => decode_encode

/-- Settles O2: the decoder loses only the operand bits above those that the command's format uses. -/
theorem decodedCommandReencodesToItsUsedBits : Obligations.DecodedCommandReencodesToItsUsedBits :=
  fun _ _ h => ⟨wellFormed_of_decode h, encode_of_decode h⟩

/-- Settles O3: the other word has the same opcode, so it decodes to a command of the same used bits; both commands are then
well formed and have one encoding. -/
theorem ignoredBitsDoNotMatter : Obligations.IgnoredBitsDoNotMatter := by
  intro w w' i hd hagree
  have hop : opField w' = opField w := opField_eq_of_and_usedBits_eq hagree
  obtain ⟨j, hj⟩ := exists_decode_of_opField_eq hd hop
  have hused : Machine.usedBits j = Machine.usedBits i := by
    rw [usedBits_eq, usedBits_eq, opcode_of_decode hj, opcode_of_decode hd, hop]
  have henc : encode j = encode i := by
    rw [encode_of_decode hj, encode_of_decode hd, hused, hagree]
  rw [hj, encode_injective_of_wellFormed (wellFormed_of_decode hj) (wellFormed_of_decode hd) henc]

/-- Settles O4, by the rows of the decoder. -/
theorem illegalExactlyOutsideTheTable : Obligations.IllegalExactlyOutsideTheTable :=
  decode_eq_illegal_iff

/-- Settles O5, by running the decoder on each word. -/
theorem printedWordsDecode : Obligations.PrintedWordsDecode := by
  refine ⟨?_, ?_, ?_, ?_, ?_⟩ <;> decide

/-- Settles O6, by running the assembler on each line. -/
theorem printedLinesAssemble : Obligations.PrintedLinesAssemble := by
  refine ⟨?_, ?_, ?_, ?_, ?_⟩ <;> decide

end Sys2Proof
end

section
/-! One step at the port (R67, R71): a command word is carried out, an illegal word is answered, and with no word nothing
happens. -/

namespace Sys2Proof.Machine

theorem State.waiting_of_pending {s : State} {p : List CmdWord} (h : s.pending = p) : s.waiting p = s := by
  rw [← h]
  rfl

/-- A step on an illegal word takes the word and answers `ILLEGAL_OPCODE` (R67). -/
theorem step_illegal {s : State} {w : CmdWord} {rest : List CmdWord} {op : Byte} (hp : s.pending = w :: rest)
    (hd : decode w = .illegalOpcode op) : step s = .next (s.waiting rest).rejectOpcode := by
  simp only [step, State.takeCommand_cons hp, hd]
  rfl

/-- Settles O7: the state is itself with the word and those behind it waiting. -/
theorem stepCarriesOutTheDecodedCommand : Obligations.StepCarriesOutTheDecodedCommand := by
  intro s w rest i hp hd
  calc step s = step (s.waiting (w :: rest)) := by rw [State.waiting_of_pending hp]
    _ = exec i (s.waiting rest) := step_issued rest hd

/-- Settles O8: by `decode_eq_illegal_iff` these opcodes are the illegal ones. -/
theorem stepAnswersAnIllegalOpcode : Obligations.StepAnswersAnIllegalOpcode :=
  fun _ w _ hp hop => step_illegal hp ((decode_eq_illegal_iff w).2 hop)

/-- Settles O9: with no word to take, the port waits (log entry 2). -/
theorem stepWithNothingIssuedChangesNothing : Obligations.StepWithNothingIssuedChangesNothing := by
  intro s hp
  rw [step, State.takeCommand_nil hp]
  rfl

end Sys2Proof.Machine
end

section
/-! The resampler's commands, each as one equation: `START`, `STOP` and `STATUS` in every state, and the data commands of an
active unit without fault (R80 to R92). -/

namespace Sys2Proof.Machine

/-! ### The commands that act on the unit as a whole -/

theorem decode_start {w : CmdWord} (h : opField w = 0x01) : decode w = .command (.start (argField w).toNat) := by
  rw [decode, h]
  rfl

theorem decode_stop {w : CmdWord} (h : opField w = 0x02) : decode w = .command .stop := by
  rw [decode, h]
  rfl

theorem decode_needed {w : CmdWord} (h : opField w = 0x05) : decode w = .command (.needed (argField w).toNat) := by
  rw [decode, h]
  rfl

theorem decode_avail {w : CmdWord} (h : opField w = 0x06) : decode w = .command .avail := by
  rw [decode, h]
  rfl

theorem decode_status {w : CmdWord} (h : opField w = 0x08) : decode w = .command .status := by
  rw [decode, h]
  rfl

/-- `START`'s test of its operand in the spec's arithmetic (R80). -/
theorem rateUnusable_iff (native rate : Nat) :
    rateUnusable native rate = true ↔ rate = 0 ∨ native * 32768 < rate ∨ rate * 32768 < native := by
  simp only [rateUnusable, Bool.or_eq_true, decide_eq_true_eq, or_assoc]
  rfl

/-- Settles O14. -/
theorem startResult : Obligations.StartResult := by
  refine ⟨fun _ => decode_start, fun rate s => ?_⟩
  simp only [exec, execStart, rateUnusable_iff]
  rfl

/-- Settles O15. -/
theorem stopResult : Obligations.StopResult := by
  refine ⟨fun _ => decode_stop, fun s => ?_⟩
  cases ha : s.active with
  | false => simp [exec, execStop, ha, boolWord, State.done, State.respond]
  | true => rw [execStop_active ha]; rfl

theorem statusWord_eq (active faultOvf : Bool) :
    statusWord active faultOvf = BitVec.ofNat 32 (active.toNat + 2 * faultOvf.toNat) := by
  cases active <;> cases faultOvf <;> rfl

/-- Settles O16. -/
theorem statusResult : Obligations.StatusResult := by
  refine ⟨fun _ => decode_status, fun s => ?_⟩
  rw [← statusWord_eq]
  rfl

/-! ### The pre-check and the queries -/

/-- The pre-check as the chain of R82. -/
theorem State.preCheck_eq_ite (s normal : State) : s.preCheck normal =
    if s.active = false then { s with rsp := some ⟨true, 0, []⟩ }
    else if s.faultOvf = true then { s with rsp := some ⟨false, 3, []⟩ }
    else normal := by
  rcases s.preCheck_cases normal with ⟨ha, he⟩ | ⟨ha, hf, he⟩ | ⟨ha, hf, he⟩
  · rw [he, if_pos ha]
    rfl
  · rw [he, if_neg (by simp [ha]), if_pos hf]
    rfl
  · rw [he, if_neg (by simp [ha]), if_neg (by simp [hf])]

/-- Both channels need no push for no sample, and else the number of R87. -/
theorem max_needed_eq (f n : Nat) (c c' : Channel) : max (c.needed f n) (c'.needed f n) =
    if n = 0 then 0 else max ((n * 2 ^ 32 - c.offset + f - 1) / f) ((n * 2 ^ 32 - c'.offset + f - 1) / f) := by
  by_cases hn : n = 0 <;> simp [Channel.needed, ceilDiv, Param.timeBits_eq, hn]

/-- Settles O28. -/
theorem neededResult : Obligations.NeededResult := by
  refine ⟨fun _ => decode_needed, fun n s => ?_⟩
  simp only [exec, execNeeded, State.preCheck_eq_ite, Param.capacity_eq, max_needed_eq]
  rfl

/-- Settles O30. -/
theorem availResult : Obligations.AvailResult := by
  refine ⟨fun _ => decode_avail, fun s => ?_⟩
  simp only [exec, execAvail, State.preCheck_eq_ite]
  rfl

/-! ### Pushes and the end of a frame -/

/-- A push of an active unit without fault: the overflow fault, or both channels pushed (R84). -/
theorem execPush_running {l r : Int} {s : State} (ha : s.active = true) (hf : s.faultOvf = false) :
    exec (.push l r) s = .next (if Param.capacity < s.left.pushIndex s.factor ∨ Param.capacity < s.right.pushIndex s.factor
      then s.overflowFault
      else (s.setChannels (s.left.push s.cfg s.factor l) (s.right.push s.cfg s.factor r)).done 0) := by
  simp [exec, execPush, State.preCheck_normal ha hf, Channel.pushOverflows]

/-- The end of a frame overflows where the next push would (R83, R85). -/
theorem Channel.frameOverflows_eq (f : Nat) (c : Channel) : c.frameOverflows f = c.pushOverflows f := rfl

/-- The end of a frame of an active unit without fault: it overflows where a push would (R85, R86). -/
theorem execEndframe_running {s : State} (ha : s.active = true) (hf : s.faultOvf = false) :
    exec .endframe s = .next (if Param.capacity < s.left.pushIndex s.factor ∨ Param.capacity < s.right.pushIndex s.factor
      then s.overflowFault
      else (s.setChannels (s.left.endFrame s.factor) (s.right.endFrame s.factor)).done
        (BitVec.ofNat 32 (min (s.left.added s.factor) (s.right.added s.factor)))) := by
  simp [exec, execEndframe, State.preCheck_normal ha hf, Channel.frameOverflows_eq, Channel.pushOverflows]

/-- The end of a frame that overflows in neither channel (R85, R86). -/
theorem execEndframe_accepted {s : State} (ha : s.active = true) (hf : s.faultOvf = false)
    (hl : s.left.pushIndex s.factor ≤ Param.capacity) (hr : s.right.pushIndex s.factor ≤ Param.capacity) :
    exec .endframe s = .next ((s.setChannels (s.left.endFrame s.factor) (s.right.endFrame s.factor)).done
      (BitVec.ofNat 32 (min (s.left.added s.factor) (s.right.added s.factor)))) := by
  rw [execEndframe_running ha hf, if_neg (by omega)]

/-- Settles O27: the accepted end of a frame with its operations written out. -/
theorem endframeResult : Obligations.EndframeResult :=
  fun _ ha hf hl hr => execEndframe_accepted ha hf hl hr

/-- What an accepted push makes of a channel with a line in canonical form, in the spec's arithmetic (R83). -/
theorem Channel.push_pushedTo {cfg : Config} {f : Nat} (v : Int) {c : Channel} (hwf : Memory.wf c.ring = true)
    (hi : c.pushIndex f ≤ Param.capacity) : c.PushedTo cfg f v (c.push cfg f v) :=
  ⟨rfl, rfl, c.push_offset cfg f v, c.push_avail cfg f v, c.push_rd cfg f v, c.push_acc cfg f v,
    fun _ hj => Channel.lineRead_push_tap hwf hi hj, fun _ hx hout => Channel.lineRead_push_other hi hx hout⟩

/-- Settles O25. -/
theorem pushResult : Obligations.PushResult := by
  rintro l r s ha hf ⟨⟨hwfl, -⟩, hwfr, -⟩ hl hr
  exact ⟨_, execPush_accepted ha hf hl hr, rfl, Channel.push_pushedTo l hwfl hl, Channel.push_pushedTo r hwfr hr⟩

/-! ### Pops -/

/-- The output sample after `m + 1` entries, in the spec's arithmetic (R90). -/
theorem Channel.sampleAt_eq (cfg : Config) (c : Channel) (m : Nat) :
    c.sampleAt cfg m = outputSample (c.partialSum cfg.lineLen (m + 1)) := by
  simp only [Channel.sampleAt, outputSample, sat16, Channel.partialSum, Param.deltaBits_eq, Int.shiftRight_eq_div_pow]
  rfl

/-- As many entries as a pop drains are on the line. -/
theorem Channel.popCount_le_lineLen {cfg : Config} {c : Channel} (h : c.avail ≤ Param.capacity) (n : Nat) :
    c.popCount n ≤ cfg.lineLen :=
  (c.popCount_le n).trans (h.trans cfg.capacity_le_lineLen)

theorem zipWith_map_range {α β γ : Type} (op : α → β → γ) (g : Nat → α) (h : Nat → β) (a b : Nat) :
    List.zipWith op ((List.range a).map g) ((List.range b).map h) =
      (List.range (min a b)).map fun m => op (g m) (h m) := by
  apply List.ext_getElem <;> simp

/-- The beats of a pop: each channel's samples, as many as the smaller count (R62, R91). -/
theorem pop_beats {cfg : Config} {c c' : Channel} (n : Nat) (h : c.avail ≤ Param.capacity) (h' : c'.avail ≤ Param.capacity) :
    List.zipWith Beat.mk (c.pop cfg.lineLen n).1 (c'.pop cfg.lineLen n).1 =
      (List.range (min (c.popCount n) (c'.popCount n))).map fun m => ⟨c.sampleAt cfg m, c'.sampleAt cfg m⟩ := by
  simp only [Channel.sampleAt_eq]
  rw [Channel.pop_samples (Channel.popCount_le_lineLen h n), Channel.pop_samples (Channel.popCount_le_lineLen h' n),
    zipWith_map_range]

/-- What a pop makes of a channel with a line in canonical form (R90). -/
theorem Channel.pop_poppedTo {cfg : Config} (n : Nat) {c : Channel} (hwf : Memory.wf c.ring = true)
    (h : c.avail ≤ Param.capacity) : c.PoppedTo cfg (c.popCount n) (c.pop cfg.lineLen n).2 :=
  have hk := Channel.popCount_le_lineLen h n
  ⟨c.pop_prev _ n, c.pop_tick _ n, c.pop_offset _ n, c.pop_avail _ n, c.pop_rd _ n, Channel.pop_acc hk,
    fun _ hx => Channel.lineRead_pop hwf hk hx⟩

/-- Settles O31. -/
theorem popResult : Obligations.PopResult := by
  rintro n s ha hf ⟨⟨hwfl, -⟩, hwfr, -⟩ hl hr
  refine ⟨_, execPop_accepted ha hf, ?_, Channel.pop_poppedTo n hwfl hl, Channel.pop_poppedTo n hwfr hr⟩
  rw [pop_beats n hl hr]
  rfl

end Sys2Proof.Machine
end

section
/-! Two pops in a row (R90, R91, R95): the second goes on round the ring where the first stopped. -/

namespace Sys2Proof.Machine

/-- A drain of `j + k` entries is a drain of `j` and then one of `k` from there. -/
theorem Channel.drain_add (len j k : Nat) : ∀ m c, Channel.drain len (j + k) m c =
    ((Channel.drain len j m c).1 ++ (Channel.drain len k (m + j) (Channel.drain len j m c).2).1,
      (Channel.drain len k (m + j) (Channel.drain len j m c).2).2) := by
  induction j with
  | zero => intro m c; simp [Channel.drain]
  | succ j ih =>
    intro m c
    rw [Nat.succ_add, Channel.drain, ih, Channel.drain, show m + 1 + j = m + (j + 1) by omega]
    rfl

/-- The channel with its read cursor moved on by `j` and another count of samples. -/
def Channel.advanced (len j avail : Nat) (c : Channel) : Channel := { c with rd := (c.rd + j) % len, avail := avail }

/-- Logical index `x` from the advanced read cursor is logical index `j + x` from the old one. -/
theorem Channel.ringIndex_advanced (len j avail : Nat) (c : Channel) (x : Nat) :
    (c.advanced len j avail).ringIndex len x = c.ringIndex len (j + x) := by
  simp only [Channel.ringIndex, Channel.advanced, Nat.mod_add_mod, add_assoc]

/-- A drain from the advanced read cursor is the drain from `j` entries on. -/
theorem Channel.drain_advanced (len j avail k : Nat) : ∀ m c, Channel.drain len k m (c.advanced len j avail) =
    ((Channel.drain len k (j + m) c).1, (Channel.drain len k (j + m) c).2.advanced len j avail) := by
  induction k with
  | zero => exact fun _ _ => rfl
  | succ k ih =>
    intro m c
    have hread : (c.advanced len j avail).lineRead len m = c.lineRead len (j + m) := by
      rw [Channel.lineRead, Channel.ringIndex_advanced]
      rfl
    have hwrite : ({ c.advanced len j avail with acc := c.acc + c.lineRead len (j + m) } : Channel).lineWrite len m 0 =
        (({ c with acc := c.acc + c.lineRead len (j + m) } : Channel).lineWrite len (j + m) 0).advanced len j avail := by
      have hindex := c.ringIndex_advanced len j avail m
      simp only [Channel.lineWrite, Channel.ringIndex, Channel.advanced] at hindex ⊢
      rw [hindex]
    simp only [Channel.drain, hread]
    rw [show (c.advanced len j avail).acc = c.acc from rfl, hwrite, ih, ← add_assoc]

/-- A pop drains its count and advances the read cursor past it. -/
theorem Channel.pop_eq_advanced (len n : Nat) (c : Channel) : c.pop len n =
    ((Channel.drain len (c.popCount n) 0 c).1,
      (Channel.drain len (c.popCount n) 0 c).2.advanced len (c.popCount n) (c.avail - c.popCount n)) := by
  simp only [Channel.pop, Channel.advanced, Channel.drain_rd]

/-- What two pops drain together is what one pop of both counts drains. -/
theorem Channel.popCount_add (len a b : Nat) (c : Channel) :
    c.popCount (a + b) = c.popCount a + (c.pop len a).2.popCount b := by
  simp only [Channel.popCount, Channel.pop_avail]
  omega

/-- Two pops of a channel are one pop of both counts, whatever form the line is in. -/
theorem Channel.pop_add (len a b : Nat) (c : Channel) : c.pop len (a + b) =
    ((c.pop len a).1 ++ ((c.pop len a).2.pop len b).1, ((c.pop len a).2.pop len b).2) := by
  have hcount := c.popCount_add len a b
  generalize hk : (c.pop len a).2.popCount b = k at hcount
  rw [Channel.pop_eq_advanced len b, hk, Channel.pop_eq_advanced len (a + b), hcount, Channel.drain_add,
    Channel.pop_avail, Channel.pop_eq_advanced len a, Channel.drain_advanced]
  simp only [Channel.advanced, Nat.zero_add, Nat.add_zero, Nat.mod_add_mod, add_assoc, Nat.sub_sub]

/-- A pop gives as many samples as it drains. -/
theorem Channel.pop_length (len n : Nat) (c : Channel) : (c.pop len n).1.length = c.popCount n :=
  Channel.drain_length len _ _ _

theorem eq_of_execPop {n : Nat} {s t : State} (h : exec (.pop n) s = .next t) (ha : s.active = true)
    (hf : s.faultOvf = false) :
    t = (s.setChannels (s.left.pop s.cfg.lineLen n).2 (s.right.pop s.cfg.lineLen n).2).respond true
      (BitVec.ofNat 32 (min (s.left.popCount n) (s.right.popCount n)))
      (List.zipWith Beat.mk (s.left.pop s.cfg.lineLen n).1 (s.right.pop s.cfg.lineLen n).1) :=
  Host.Outcome.next.inj (h.symm.trans (execPop_accepted ha hf))

/-- Settles O32: in lock-step both channels drain the same counts, so the beats of the pops join up. -/
theorem popsCompose : Obligations.PopsCompose := by
  rintro a b s t u v ha hf ⟨-, -, havail, -⟩ ht hu hv
  obtain rfl := eq_of_execPop ht ha hf
  obtain rfl := eq_of_execPop hu ha hf
  obtain rfl := eq_of_execPop hv ha hf
  have hlength : (s.left.pop s.cfg.lineLen a).1.length = (s.right.pop s.cfg.lineLen a).1.length := by
    simp only [Channel.pop_length, Channel.popCount, havail]
  refine ⟨⟨rfl, rfl, rfl, rfl, ?_, ?_⟩, _, _, _, rfl, rfl, rfl, ?_⟩
  · simp [Channel.pop_add]
  · simp [Channel.pop_add]
  · simp [Channel.pop_add, List.zipWith_append hlength]

end Sys2Proof.Machine
end

section
/-! The answer of `NEEDED` as a least frame length (R87, R88). -/

namespace Sys2Proof.Machine

theorem ceilDiv_le_iff {a f m : Nat} (hf : 0 < f) : ceilDiv a f ≤ m ↔ a ≤ m * f := by
  rw [ceilDiv, Nat.div_le_iff_le_mul_add_pred hf, Nat.mul_comm]
  omega

/-- `m` pushes from the start of a frame are enough for `n` samples exactly from the channel's frame size on (R87). -/
theorem Channel.needed_le_iff {f n m : Nat} {c : Channel} (hf : 0 < f) :
    c.needed f n ≤ m ↔ n ≤ (m * f + c.offset) / 2 ^ 32 := by
  rw [Nat.le_div_iff_mul_le (by decide), Channel.needed]
  split
  · next hn => simp [hn]
  · rw [ceilDiv_le_iff hf, Param.timeBits_eq]
    omega

/-- For a count that is not refused the frame size fits the response word (R88). -/
theorem Channel.needed_lt {f n : Nat} {c : Channel} (hf : 2 ^ 17 ≤ f) (hn : n ≤ Param.capacity) : c.needed f n < 2 ^ 32 := by
  have hmost : c.needed f n ≤ 2 ^ 31 := by
    rw [Channel.needed_le_iff (by omega), Nat.le_div_iff_mul_le (by decide)]
    rw [Param.capacity_eq] at hn
    omega
  omega

/-- A normal answer of `NEEDED` in an active unit is the larger frame size of a count within `CAPACITY` (R88). -/
theorem execNeeded_answer {n : Nat} {s t : State} {d : DataWord} (ha : s.active = true) (h : exec (.needed n) s = .next t)
    (hrsp : t.rsp = some ⟨true, d, []⟩) : n ≤ Param.capacity ∧
      d = BitVec.ofNat 32 (max (s.left.needed s.factor n) (s.right.needed s.factor n)) := by
  rw [exec, execNeeded, State.preCheck_eq_ite, if_neg (by simp [ha])] at h
  obtain rfl := Host.Outcome.next.inj h
  split at hrsp
  · simp at hrsp
  · split at hrsp
    · simp at hrsp
    · next hn =>
      simp only [State.done_rsp, Option.some.injEq, Response.mk.injEq, true_and, and_true] at hrsp
      exact ⟨Nat.not_lt.1 hn, hrsp.symm⟩

/-- Settles O29. -/
theorem neededIsTheLeastFrameLength : Obligations.NeededIsTheLeastFrameLength := by
  rintro n m s t d ⟨-, -, hfactor, -⟩ ha h hrsp
  obtain ⟨hn, rfl⟩ := execNeeded_answer ha h hrsp
  obtain ⟨hf, -⟩ := hfactor ha
  have hpos : 0 < s.factor := by omega
  have hfits : max (s.left.needed s.factor n) (s.right.needed s.factor n) < 2 ^ 32 :=
    max_lt (Channel.needed_lt hf hn) (Channel.needed_lt hf hn)
  rw [BitVec.toNat_ofNat, Nat.mod_eq_of_lt hfits, max_le_iff, Channel.needed_le_iff hpos, Channel.needed_le_iff hpos]

end Sys2Proof.Machine
end

section
/-! Frames: the pushes of a run and the end of the frame, carried out without a fault, as one operation on each channel
(R83, R85). The line depends on the present time and not on how `avail`, `offset` and `tick` make it up. -/

namespace Sys2Proof.Machine

/-! ### The pushes of a frame on a channel -/

/-- A channel after a push of each sample, first sample first. -/
def Channel.pushAll (cfg : Config) (f : Nat) (vs : List Int) (c : Channel) : Channel :=
  vs.foldl (fun c v => c.push cfg f v) c

theorem Channel.pushAll_cons (cfg : Config) (f : Nat) (v : Int) (vs : List Int) (c : Channel) :
    c.pushAll cfg f (v :: vs) = (c.push cfg f v).pushAll cfg f vs := rfl

theorem Channel.pushAll_append (cfg : Config) (f : Nat) (vs ws : List Int) (c : Channel) :
    c.pushAll cfg f (vs ++ ws) = (c.pushAll cfg f vs).pushAll cfg f ws := List.foldl_append

theorem Channel.now_pushAll (cfg : Config) (f : Nat) (vs : List Int) : ∀ c : Channel,
    (c.pushAll cfg f vs).now f = c.now f + vs.length * f := by
  induction vs with
  | nil => simp [Channel.pushAll]
  | cons v vs ih =>
    intro c
    rw [Channel.pushAll_cons, ih, Channel.now_push, List.length_cons]
    ring

theorem Channel.pushIndex_le_pushAll (cfg : Config) (f : Nat) (vs : List Int) (c : Channel) :
    c.pushIndex f ≤ (c.pushAll cfg f vs).pushIndex f := by
  rw [Channel.pushIndex_eq_now_div, Channel.pushIndex_eq_now_div, Channel.now_pushAll]
  exact Nat.div_le_div_right (Nat.le_add_right _ _)

/-! ### Channels that differ in the make-up of the present time -/

/-- The phase of a push is in the present time, of which `avail` is the whole part alone (R83). -/
theorem Channel.phaseOf_position (f : Nat) (c : Channel) : phaseOf (c.position f) = phaseOf (c.now f) := by
  simp only [phaseOf, Channel.now, Param.timeBits_eq, Param.phaseBits_eq, Param.phases_eq]
  omega

/-- The end of a frame counts the present time's whole part as `avail` and keeps its fraction (R85). -/
theorem Channel.endFrame_eq (f : Nat) (c : Channel) :
    c.endFrame f = { c with avail := c.now f / 2 ^ 32, offset := c.now f % 2 ^ 32, tick := 0 } := by
  have havail : c.avail + c.added f = c.now f / 2 ^ 32 := c.pushIndex_eq_now_div f
  have hoffset : fractionOf (c.position f) = c.now f % 2 ^ 32 := by
    simp only [fractionOf, Channel.now, Param.timeBits_eq]
    omega
  rw [Channel.endFrame, havail, hoffset]

/-- The same line, integrator and last sample at the same present time, which `avail`, `offset` and `tick` may make up in
two ways. -/
structure Channel.SameLine (f : Nat) (c c' : Channel) : Prop where
  now : c.now f = c'.now f
  prev : c.prev = c'.prev
  rd : c.rd = c'.rd
  acc : c.acc = c'.acc
  ring : c.ring = c'.ring

theorem Channel.endFrame_sameLine (f : Nat) (c : Channel) : (c.endFrame f).SameLine f c :=
  ⟨c.now_endFrame f, rfl, rfl, rfl, rfl⟩

/-- The end of a frame leaves one make-up of the present time. -/
theorem Channel.SameLine.endFrame_eq {f : Nat} {c c' : Channel} (h : c.SameLine f c') : c.endFrame f = c'.endFrame f := by
  obtain ⟨hnow, hprev, hrd, hacc, hring⟩ := h
  rw [Channel.endFrame_eq, Channel.endFrame_eq, hnow, hprev, hrd, hacc, hring]

theorem Channel.addTaps_ring_congr (len : Nat) (d : Int) (ks : List Int) : ∀ x c c', c.rd = c'.rd → c.ring = c'.ring →
    (Channel.addTaps len d x ks c).ring = (Channel.addTaps len d x ks c').ring := by
  induction ks with
  | nil => exact fun _ _ _ _ h => h
  | cons k ks ih =>
    intro x c c' hrd hring
    refine ih _ _ _ hrd ?_
    simp only [Channel.lineWrite_ring, Channel.lineRead, Channel.ringIndex, hrd, hring]

/-- A push does the same to both lines: its taps and their place are in the present time (R83). -/
theorem Channel.SameLine.push {f : Nat} {c c' : Channel} (h : c.SameLine f c') (cfg : Config) (v : Int) :
    (c.push cfg f v).SameLine f (c'.push cfg f v) := by
  obtain ⟨hnow, hprev, hrd, hacc, hring⟩ := h
  refine ⟨by rw [Channel.now_push, Channel.now_push, hnow], rfl, by simpa using hrd, by simpa using hacc, ?_⟩
  simp only [Channel.push, Channel.phaseOf_position, Channel.pushIndex_eq_now_div, hnow, hprev]
  exact Channel.addTaps_ring_congr _ _ _ _ _ _ hrd hring

theorem Channel.SameLine.pushAll {f : Nat} (cfg : Config) (vs : List Int) : ∀ {c c' : Channel}, c.SameLine f c' →
    (c.pushAll cfg f vs).SameLine f (c'.pushAll cfg f vs) := by
  induction vs with
  | nil => exact fun h => h
  | cons v vs ih => exact fun h => ih (h.push cfg v)

/-- Ending the frame between two lists of pushes makes no difference after the end of the frame (R96). -/
theorem Channel.endFrame_pushAll_split (cfg : Config) (f : Nat) (vs ws : List Int) (c : Channel) :
    (((c.pushAll cfg f vs).endFrame f).pushAll cfg f ws).endFrame f = (c.pushAll cfg f (vs ++ ws)).endFrame f := by
  rw [Channel.pushAll_append]
  exact ((Channel.endFrame_sameLine f _).pushAll cfg ws).endFrame_eq

/-! ### Runs of pushes and frame ends -/

theorem runCommands_append {is js : List Instr} : ∀ {s t : State}, runCommands (is ++ js) s = .next t →
    ∃ m, runCommands is s = .next m ∧ runCommands js m = .next t := by
  induction is with
  | nil => exact fun h => ⟨_, rfl, h⟩
  | cons i is ih =>
    intro s t h
    obtain ⟨m, hm⟩ := exec_total i s
    rw [List.cons_append, runCommands_cons _ hm] at h
    rw [runCommands_cons _ hm]
    exact ih h

/-- The commands a frame is made of. -/
def IsFrameCommand (i : Instr) : Prop := i = .endframe ∨ ∃ l r, i = .push l r

theorem isFrameCommand_of_mem_pushes {xs : List (Int × Int)} {i : Instr} (h : i ∈ pushes xs) : IsFrameCommand i := by
  obtain ⟨x, -, rfl⟩ := List.mem_map.1 h
  exact .inr ⟨_, _, rfl⟩

theorem isFrameCommand_of_mem_frame {xs : List (Int × Int)} {i : Instr} (h : i ∈ pushes xs ++ [.endframe]) : IsFrameCommand i := by
  rcases List.mem_append.1 h with h | h
  · exact isFrameCommand_of_mem_pushes h
  · exact .inl (List.mem_singleton.1 h)

/-- Active and without fault: the data commands pass the pre-check (R82). -/
abbrev State.Ready (s : State) : Prop := s.active = true ∧ s.faultOvf = false

/-- A unit that is not ready answers the commands of a frame and changes nothing (R82). -/
theorem Effect.sameHardware_of_not_ready {i : Instr} {s t : State} (h : Effect i s t) (hs : ¬ s.Ready) (hi : IsFrameCommand i) :
    t.SameHardware s := by
  cases h with
  | answered => exact ⟨rfl, rfl, rfl, rfl, rfl, rfl⟩
  | started _ hi' | stopped hi' => simp [IsFrameCommand, hi'] at hi
  | overflowed _ ha hf | pushed _ _ _ ha hf | ended _ ha hf | popped _ _ ha hf => exact absurd ⟨ha, hf⟩ hs

theorem State.SameHardware.ready_iff {s t : State} (h : s.SameHardware t) : s.Ready ↔ t.Ready := by
  obtain ⟨-, hactive, -, hfault, -⟩ := h
  rw [State.Ready, State.Ready, hactive, hfault]

theorem State.SameHardware.trans {s t u : State} (h : s.SameHardware t) (h' : t.SameHardware u) : s.SameHardware u := by
  obtain ⟨h₁, h₂, h₃, h₄, h₅, h₆⟩ := h
  obtain ⟨h₁', h₂', h₃', h₄', h₅', h₆'⟩ := h'
  exact ⟨h₁.trans h₁', h₂.trans h₂', h₃.trans h₃', h₄.trans h₄', h₅.trans h₅', h₆.trans h₆'⟩

theorem State.SameHardware.symm {s t : State} (h : s.SameHardware t) : t.SameHardware s := by
  obtain ⟨h₁, h₂, h₃, h₄, h₅, h₆⟩ := h
  exact ⟨h₁.symm, h₂.symm, h₃.symm, h₄.symm, h₅.symm, h₆.symm⟩

theorem runCommands_of_not_ready {is : List Instr} (his : ∀ i ∈ is, IsFrameCommand i) : ∀ {s t : State}, ¬ s.Ready →
    runCommands is s = .next t → t.SameHardware s := by
  induction is with
  | nil =>
    rintro s t - h
    obtain rfl := Host.Outcome.next.inj h
    exact ⟨rfl, rfl, rfl, rfl, rfl, rfl⟩
  | cons i is ih =>
    obtain ⟨hi, his⟩ := List.forall_mem_cons.1 his
    intro s t hs h
    obtain ⟨m, hm⟩ := exec_total i s
    rw [runCommands_cons _ hm] at h
    have hsame := (exec_effect hm).sameHardware_of_not_ready hs hi
    exact (ih his (by rwa [hsame.ready_iff]) h).trans hsame

/-- The overflow fault stays: a run of a frame's commands that ends without it began without it (R13). -/
theorem faultOvf_eq_false_of_runCommands {is : List Instr} (his : ∀ i ∈ is, IsFrameCommand i) {s t : State}
    (h : runCommands is s = .next t) (ht : t.faultOvf = false) : s.faultOvf = false := by
  by_cases hs : s.Ready
  · exact hs.2
  · obtain ⟨-, -, -, hfault, -⟩ := runCommands_of_not_ready his hs h
    rw [← hfault, ht]

/-- A push that ends without fault was accepted (R84). -/
theorem eq_of_execPush {l r : Int} {s t : State} (h : exec (.push l r) s = .next t) (hs : s.Ready) (ht : t.faultOvf = false) :
    t = (s.setChannels (s.left.push s.cfg s.factor l) (s.right.push s.cfg s.factor r)).done 0 := by
  rw [execPush_running hs.1 hs.2] at h
  obtain rfl := Host.Outcome.next.inj h
  split
  · next hover => simp [hover] at ht
  · rfl

/-- Without a fault each push of a ready unit is accepted (R84). -/
theorem runCommands_pushes {xs : List (Int × Int)} : ∀ {s t : State}, runCommands (pushes xs) s = .next t → s.Ready →
    t.faultOvf = false → t.SameHardware (s.setChannels (s.left.pushAll s.cfg s.factor (xs.map Prod.fst))
      (s.right.pushAll s.cfg s.factor (xs.map Prod.snd))) := by
  induction xs with
  | nil =>
    rintro s t h - -
    obtain rfl := Host.Outcome.next.inj h
    exact ⟨rfl, rfl, rfl, rfl, rfl, rfl⟩
  | cons x xs ih =>
    intro s t h hs ht
    obtain ⟨m, hm⟩ := exec_total (.push x.1 x.2) s
    rw [pushes, List.map_cons, runCommands_cons _ hm] at h
    have hm' := faultOvf_eq_false_of_runCommands (fun _ => isFrameCommand_of_mem_pushes) h ht
    obtain rfl := eq_of_execPush hm hs hm'
    exact ih h hs ht

/-- The state after a frame: each channel after the pushes and the end of the frame. -/
def State.afterFrame (xs : List (Int × Int)) (s : State) : State :=
  s.setChannels ((s.left.pushAll s.cfg s.factor (xs.map Prod.fst)).endFrame s.factor)
    ((s.right.pushAll s.cfg s.factor (xs.map Prod.snd)).endFrame s.factor)

/-- A frame of a ready unit that ends without fault, and where the next push would begin: within `CAPACITY` (R83 to R86). -/
theorem runCommands_frame {xs : List (Int × Int)} {s t : State} (h : runCommands (pushes xs ++ [.endframe]) s = .next t)
    (hs : s.Ready) (ht : t.faultOvf = false) : t.SameHardware (s.afterFrame xs) ∧
      (s.left.pushAll s.cfg s.factor (xs.map Prod.fst)).pushIndex s.factor ≤ Param.capacity ∧
      (s.right.pushAll s.cfg s.factor (xs.map Prod.snd)).pushIndex s.factor ≤ Param.capacity := by
  obtain ⟨m, hpushes, hend⟩ := runCommands_append h
  have hm := faultOvf_eq_false_of_runCommands (by simp [IsFrameCommand]) hend ht
  obtain ⟨hcfg, hactive, hfactor, -, hleft, hright⟩ := runCommands_pushes hpushes hs hm
  rw [runCommands_cons [] (execEndframe_running (hactive.trans hs.1) hm)] at hend
  obtain rfl := Host.Outcome.next.inj hend
  by_cases hover : Param.capacity < m.left.pushIndex m.factor ∨ Param.capacity < m.right.pushIndex m.factor
  · simp [hover] at ht
  · rw [if_neg hover]
    simp only [State.setChannels_left, State.setChannels_right, State.setChannels_factor] at hleft hright hfactor
    rw [hleft, hright, hfactor] at hover
    refine ⟨⟨hcfg, hactive, hfactor, hm.trans hs.2.symm, ?_, ?_⟩, by omega, by omega⟩ <;>
      simp [State.afterFrame, hleft, hright, hfactor]

/-! ### Splitting a frame -/

theorem State.afterFrame_append (xs ys : List (Int × Int)) (s : State) :
    (s.afterFrame xs).afterFrame ys = s.afterFrame (xs ++ ys) := by
  simp only [State.afterFrame, State.setChannels_left, State.setChannels_right, State.setChannels_cfg,
    State.setChannels_factor, Channel.endFrame_pushAll_split, List.map_append]
  rfl

theorem State.SameHardware.afterFrame {s t : State} (h : s.SameHardware t) (xs : List (Int × Int)) :
    (s.afterFrame xs).SameHardware (t.afterFrame xs) := by
  obtain ⟨hcfg, hactive, hfactor, hfault, hleft, hright⟩ := h
  simp [State.SameHardware, State.afterFrame, hcfg, hactive, hfactor, hfault, hleft, hright]

/-- Settles O48: without a fault both runs are frames on the channels (`runCommands_frame`), and a unit that is not ready
stays as it is. -/
theorem framesCanBeSplit : Obligations.FramesCanBeSplit := by
  intro s t u xs ys h₂ h₁ ht hu
  rw [List.append_cons] at h₂
  by_cases hs : s.Ready
  · obtain ⟨m, hfirst, hsecond⟩ := runCommands_append h₂
    have hm := faultOvf_eq_false_of_runCommands (fun _ => isFrameCommand_of_mem_frame) hsecond ht
    obtain ⟨hmid, -⟩ := runCommands_frame hfirst hs hm
    obtain ⟨hsplit, -⟩ := runCommands_frame hsecond (hmid.ready_iff.2 hs) ht
    obtain ⟨hwhole, -⟩ := runCommands_frame h₁ hs hu
    have hframes := hsplit.trans (hmid.afterFrame ys)
    rw [State.afterFrame_append] at hframes
    exact hframes.trans hwhole.symm
  · have hsplit : t.SameHardware s := runCommands_of_not_ready (fun i hi => ?_) hs h₂
    · exact hsplit.trans (runCommands_of_not_ready (fun _ => isFrameCommand_of_mem_frame) hs h₁).symm
    · exact (List.mem_append.1 hi).elim isFrameCommand_of_mem_frame isFrameCommand_of_mem_frame

end Sys2Proof.Machine
end

section
/-! What a frame delivers: its count of samples against the answer of `NEEDED` (R93), and the samples of a constant input
(R94). -/

namespace Sys2Proof.Machine

/-! ### The count -/

/-- A frame of `vs` from the start of a frame makes as many samples available as R87 counts on. -/
theorem Channel.avail_of_frame (cfg : Config) (f : Nat) (vs : List Int) {c : Channel} (ht : c.tick = 0) :
    ((c.pushAll cfg f vs).endFrame f).avail = c.avail + (vs.length * f + c.offset) / 2 ^ 32 := by
  rw [Channel.endFrame_eq, Channel.now_pushAll]
  simp only [Channel.now, Channel.position, ht, Param.timeBits_eq]
  omega

/-- `NEEDED` changes no register (R88). -/
theorem sameHardware_of_execNeeded {n : Nat} {s t : State} (h : exec (.needed n) s = .next t) : t.SameHardware s := by
  cases exec_effect h with
  | answered => exact ⟨rfl, rfl, rfl, rfl, rfl, rfl⟩
  | overflowed hi => simp at hi
  | started _ hi | stopped hi | pushed _ _ hi | ended hi | popped _ hi => simp at hi

/-- Settles O49: in lock-step both channels get the count of `Channel.avail_of_frame`, which reaches `n` from the answer of
`NEEDED` on. -/
theorem neededPushesSuffice : Obligations.NeededPushesSuffice := by
  rintro s s' t n d xs hrange ⟨htick, hoffset, -, -⟩ ha hf ht hneeded hrsp hrun hok
  have hleast := neededIsTheLeastFrameLength n xs.length s s' d hrange ha hneeded hrsp
  obtain ⟨hcfg, hactive, hfactor, hfault, hleft, hright⟩ := sameHardware_of_execNeeded hneeded
  obtain ⟨⟨-, -, -, -, hl, hr⟩, -⟩ := runCommands_frame hrun ⟨hactive.trans ha, hfault.trans hf⟩ hok
  have hcountl : t.left.avail = s.left.avail + (xs.length * s.factor + s.left.offset) / 2 ^ 32 := by
    rw [hl, State.afterFrame, State.setChannels_left, hleft, hcfg, hfactor, Channel.avail_of_frame _ _ _ ht, List.length_map]
  have hcountr : t.right.avail = s.right.avail + (xs.length * s.factor + s.right.offset) / 2 ^ 32 := by
    rw [hr, State.afterFrame, State.setChannels_right, hright, hcfg, hfactor, Channel.avail_of_frame _ _ _ (htick ▸ ht),
      List.length_map]
  rw [hoffset, and_self] at hleast
  rw [hcountl, hcountr, hoffset]
  exact ⟨fun hd => by have := hleast.1 hd; omega, fun _ hd => by have := mt hleast.2 (by omega); omega⟩

/-! ### The samples -/

/-- Pushing the last sample again changes no partial sum: the delta is 0 (R83). -/
theorem Channel.partialSum_pushAll_same {cfg : Config} {f k : Nat} (hk : k ≤ cfg.lineLen) (n : Nat) :
    ∀ {c : Channel}, c.RingOk cfg.lineLen →
      (c.pushAll cfg f (List.replicate n c.prev)).pushIndex f ≤ Param.capacity →
      (c.pushAll cfg f (List.replicate n c.prev)).partialSum cfg.lineLen k = c.partialSum cfg.lineLen k := by
  induction n with
  | zero => exact fun _ _ => rfl
  | succ n ih =>
    intro c hring hi
    rw [List.replicate_succ, Channel.pushAll_cons] at hi ⊢
    have hfirst : c.pushIndex f ≤ Param.capacity :=
      (c.pushIndex_le_push cfg f c.prev).trans ((Channel.pushIndex_le_pushAll _ _ _ _).trans hi)
    calc ((c.push cfg f c.prev).pushAll cfg f (List.replicate n c.prev)).partialSum cfg.lineLen k
        = (c.push cfg f c.prev).partialSum cfg.lineLen k := ih (Channel.push_ringOk hring) hi
      _ = c.partialSum cfg.lineLen k := by rw [Channel.partialSum_push hring.1 hfirst hk, sub_self, mul_zero, add_zero]

/-- From `W` entries beyond its position on, a push brings every partial sum to the level of its sample: the line was at the
level of the sample before, and by unity gain it grows by the difference (R43, R94). -/
theorem Channel.partialSum_push_above {cfg : Config} {f k : Nat} {v : Int} {c : Channel} (hcfg : cfg.Valid)
    (hwf : Memory.wf c.ring = true) (hclear : c.ClearAbove cfg f) (hbal : c.Balanced cfg.lineLen)
    (hi : c.pushIndex f ≤ Param.capacity) (hk : k ≤ cfg.lineLen) (habove : c.pushIndex f + cfg.taps ≤ k) :
    (c.push cfg f v).partialSum cfg.lineLen k = Param.unit * v := by
  rw [Channel.partialSum_push hwf hi hk, Channel.partialSum_above hclear hbal hk habove,
    List.take_of_length_le (by rw [kernelRow_length]; omega), kernelRow_sum hcfg, ← mul_add, add_sub_cancel]

/-- A channel whose only sample in a frame is `v` is at its level from `W` entries beyond the first push on (R94). -/
theorem Channel.partialSum_frame_constant {cfg : Config} {f k n : Nat} {v : Int} {c : Channel} (hcfg : cfg.Valid)
    (hring : c.RingOk cfg.lineLen) (hclear : c.ClearAbove cfg f) (hbal : c.Balanced cfg.lineLen)
    (hi : (c.pushAll cfg f (List.replicate (n + 1) v)).pushIndex f ≤ Param.capacity) (hk : k ≤ cfg.lineLen)
    (habove : c.pushIndex f + cfg.taps ≤ k) :
    ((c.pushAll cfg f (List.replicate (n + 1) v)).endFrame f).partialSum cfg.lineLen k = Param.unit * v := by
  have hfirst : c.pushIndex f ≤ Param.capacity := (c.pushIndex_le_pushAll cfg f _).trans hi
  rw [Channel.partialSum_congr (Channel.endFrame_acc _ _) (Channel.endFrame_ring _ _) (Channel.endFrame_rd _ _)]
  rw [List.replicate_succ, Channel.pushAll_cons] at hi ⊢
  exact (Channel.partialSum_pushAll_same hk n (Channel.push_ringOk hring) hi).trans
    (Channel.partialSum_push_above hcfg hring.1 hclear hbal hfirst hk habove)

/-- The output sample at the level of a 16-bit sample is that sample: nothing is lost and nothing clamped (R90). -/
theorem outputSample_unit_mul {v : Int} (hv : fitsS16 v = true) : outputSample (Param.unit * v) = v := by
  simp only [fitsS16, Bool.and_eq_true, decide_eq_true_eq] at hv
  rw [outputSample, Int.shiftRight_eq_div_pow, Param.unit_eq, Param.deltaBits_eq, sat16]
  omega

/-- The beats of a pop, one by one. -/
theorem beat_of_execPop {n m : Nat} {s t : State} {r : Response} {b : Beat} (h : exec (.pop n) s = .next t) (hs : s.Ready)
    (hl : s.left.avail ≤ Param.capacity) (hr : s.right.avail ≤ Param.capacity) (hrsp : t.rsp = some r)
    (hb : r.beats[m]? = some b) :
    m < s.left.avail ∧ b = ⟨s.left.sampleAt s.cfg m, s.right.sampleAt s.cfg m⟩ := by
  obtain rfl := eq_of_execPop h hs.1 hs.2
  obtain rfl := Option.some.inj hrsp
  rw [pop_beats n hl hr, List.getElem?_map] at hb
  obtain ⟨i, hi, rfl⟩ := Option.map_eq_some_iff.1 hb
  obtain ⟨hm, rfl⟩ := List.getElem?_eq_some_iff.1 hi
  have hcount := s.left.popCount_le n
  rw [List.length_range] at hm
  simp only [List.getElem_range]
  exact ⟨by omega, trivial⟩

/-- In lock-step both channels push at the same line index (R22). -/
theorem State.Lockstep.pushIndex_eq {s : State} (h : s.Lockstep) (f : Nat) : s.left.pushIndex f = s.right.pushIndex f := by
  obtain ⟨htick, hoffset, havail, -⟩ := h
  rw [Channel.pushIndex, Channel.pushIndex, Channel.position, Channel.position, htick, hoffset, havail]

/-- Settles O50: the sample at line index `m` is the partial sum of `m + 1` entries, which is at the level of the input. -/
theorem constantInputSettles : Obligations.ConstantInputSettles := by
  rintro s t u l r n count m rsp b ⟨hcfg, hlock, -, ⟨hringl, hringr⟩, ⟨hclearl, hclearr⟩, ⟨hball, hbalr⟩, -⟩ ha hf hvl hvr
    hrun hok hpop hrsp hb hm
  obtain ⟨hsame, hil, hir⟩ := runCommands_frame hrun ⟨ha, hf⟩ hok
  have hready : t.Ready := hsame.ready_iff.2 ⟨ha, hf⟩
  obtain ⟨htcfg, -, -, -, hleft, hright⟩ := hsame
  rw [List.map_replicate] at hil hir
  simp only [State.afterFrame, State.setChannels_cfg, State.setChannels_left, State.setChannels_right,
    List.map_replicate] at htcfg hleft hright
  have havaill : t.left.avail ≤ Param.capacity := by
    rw [hleft]
    exact hil
  have havailr : t.right.avail ≤ Param.capacity := by
    rw [hright]
    exact hir
  obtain ⟨hdelivered, rfl⟩ := beat_of_execPop hpop hready havaill havailr hrsp hb
  have hk : m + 1 ≤ s.cfg.lineLen := hdelivered.trans_le (havaill.trans s.cfg.capacity_le_lineLen)
  have habovel : s.left.pushIndex s.factor + s.cfg.taps ≤ m + 1 := by
    obtain ⟨-, ⟨htaps, -⟩, -⟩ := hcfg
    change s.left.pushIndex s.factor + (s.cfg.taps - 1) ≤ m at hm
    omega
  have habover : s.right.pushIndex s.factor + s.cfg.taps ≤ m + 1 := by
    rwa [← hlock.pushIndex_eq]
  rw [Channel.sampleAt_eq, Channel.sampleAt_eq, htcfg, hleft, hright,
    Channel.partialSum_frame_constant hcfg hringl hclearl hball hil hk habovel,
    Channel.partialSum_frame_constant hcfg hringr hclearr hbalr hir hk habover,
    outputSample_unit_mul hvl, outputSample_unit_mul hvr]

end Sys2Proof.Machine
end

section
/-! The right view of a state under each command (R99): what a command makes of the right lane, the counters and the right
samples is a function of the right view before it, and of its operands but for the left sample. -/

namespace Sys2Proof.Machine

/-! ### The right view of each operation -/

theorem State.rightView_answered (r : Response) (s : State) : ({ s with rsp := some r } : State).rightView =
    { s.rightView with rsp := some (r.ok, r.data, r.beats.map Beat.right) } := rfl

@[simp] theorem State.rightView_respond (ok : Bool) (d : DataWord) (beats : List Beat) (s : State) :
    (s.respond ok d beats).rightView = { s.rightView with rsp := some (ok, d, beats.map Beat.right) } := rfl

@[simp] theorem State.rightView_done (d : DataWord) (s : State) :
    (s.done d).rightView = { s.rightView with rsp := some (true, d, []) } := rfl

@[simp] theorem State.rightView_refuse (reason : Reason) (s : State) :
    (s.refuse reason).rightView = { s.rightView with rsp := some (false, reasonCode reason, []) } := rfl

@[simp] theorem State.rightView_overflowFault (s : State) :
    s.overflowFault.rightView = { s.rightView with faultOvf := true, rsp := some (false, 4, []) } := rfl

@[simp] theorem State.rightView_powerOn (s : State) : s.powerOn.rightView = { s.rightView with
    active := false, factor := 0, faultOvf := false, leftCounters := (0, 0, 0, 0), right := Channel.reset } := rfl

@[simp] theorem State.rightView_construct (f : Nat) (s : State) : (s.construct f).rightView = { s.rightView with
    active := true, factor := f, faultOvf := false, leftCounters := (0, 0, 0, 0), right := Channel.reset } := rfl

@[simp] theorem State.rightView_setChannels (l r : Channel) (s : State) : (s.setChannels l r).rightView =
    { s.rightView with leftCounters := (l.tick, l.offset, l.avail, l.rd), right := r } := rfl

/-! ### What equal right views have in common -/

/-- The same counters: all of a channel but its data (R22). -/
structure Channel.SameCounters (c c' : Channel) : Prop where
  tick : c.tick = c'.tick
  offset : c.offset = c'.offset
  avail : c.avail = c'.avail
  rd : c.rd = c'.rd

/-- What the commands read of a state but for left data. -/
structure State.SameRight (s t : State) : Prop where
  cfg : s.cfg = t.cfg
  active : s.active = t.active
  factor : s.factor = t.factor
  faultOvf : s.faultOvf = t.faultOvf
  left : s.left.SameCounters t.left
  right : s.right = t.right

theorem State.sameRight_of_rightView_eq {s t : State} (h : s.rightView = t.rightView) : s.SameRight t := by
  simp only [State.rightView, RightView.mk.injEq, Prod.mk.injEq] at h
  obtain ⟨hcfg, hactive, hfactor, hfault, ⟨htick, hoffset, havail, hrd⟩, hright, -, -⟩ := h
  exact ⟨hcfg, hactive, hfactor, hfault, ⟨htick, hoffset, havail, hrd⟩, hright⟩

/-! ### The per-channel functions see the counters only -/

namespace Channel.SameCounters
variable {c c' : Channel} (h : c.SameCounters c')
include h

theorem position_eq (f : Nat) : c.position f = c'.position f := by
  rw [Channel.position, Channel.position, h.tick, h.offset]

theorem pushOverflows_eq (f : Nat) : c.pushOverflows f = c'.pushOverflows f := by
  rw [Channel.pushOverflows, Channel.pushOverflows, Channel.pushIndex, Channel.pushIndex, h.position_eq, h.avail]

theorem added_eq (f : Nat) : c.added f = c'.added f := by
  rw [Channel.added, Channel.added, h.position_eq]

theorem needed_eq (f n : Nat) : c.needed f n = c'.needed f n := by
  rw [Channel.needed, Channel.needed, h.offset]

theorem popCount_eq (n : Nat) : c.popCount n = c'.popCount n := by
  rw [Channel.popCount, Channel.popCount, h.avail]

end Channel.SameCounters

/-- Of the beats, the right samples depend on the left channel's count alone. -/
theorem map_right_zipWith (ls rs : List Int) : (List.zipWith Beat.mk ls rs).map Beat.right = rs.take ls.length := by
  induction ls generalizing rs with
  | nil => simp
  | cons l ls ih => cases rs <;> simp [ih]

/-! ### Each command -/

/-- The pre-check reads `active` and `fault_ovf`, which are in the right view (R82). -/
theorem State.SameRight.rightView_preCheck {s t n m : State} (h : s.SameRight t) (hview : s.rightView = t.rightView)
    (hnormal : n.rightView = m.rightView) : (s.preCheck n).rightView = (t.preCheck m).rightView := by
  simp only [State.preCheck, h.active, h.faultOvf, apply_ite State.rightView, State.rightView_done, State.rightView_refuse,
    hview, hnormal]

/-- Two data commands keep equal right views equal if their normal parts do (R82). -/
theorem rightView_eq_of_preCheck {s t n m s' t' : State} (hview : s.rightView = t.rightView)
    (hs : (.next (s.preCheck n) : Host.Outcome State Fault Refusal) = .next s')
    (ht : (.next (t.preCheck m) : Host.Outcome State Fault Refusal) = .next t')
    (hnormal : n.rightView = m.rightView) : s'.rightView = t'.rightView := by
  obtain rfl := Host.Outcome.next.inj hs
  obtain rfl := Host.Outcome.next.inj ht
  exact (State.sameRight_of_rightView_eq hview).rightView_preCheck hview hnormal

/-- A push keeps equal right views equal, whatever the left samples are (R84, R99). -/
theorem execPush_rightView {l l' r : Int} {s t s' t' : State} (hview : s.rightView = t.rightView)
    (hs : exec (.push l r) s = .next s') (ht : exec (.push l' r) t = .next t') : s'.rightView = t'.rightView := by
  have h := State.sameRight_of_rightView_eq hview
  refine rightView_eq_of_preCheck hview hs ht ?_
  simp [apply_ite State.rightView, hview, h.cfg, h.factor, h.right, h.left.pushOverflows_eq, h.left.tick, h.left.offset,
    h.left.avail, h.left.rd]

/-- The commands that are not data commands read nothing of a channel (R28, R80, R81, R92). -/
theorem exec_rightView_of_no_data {i : Instr} {s t s' t' : State} (hview : s.rightView = t.rightView)
    (hi : isCodecCommand i = true ∨ i = .stop ∨ i = .status ∨ ∃ rate, i = .start rate) (hs : exec i s = .next s')
    (ht : exec i t = .next t') : s'.rightView = t'.rightView := by
  have h := State.sameRight_of_rightView_eq hview
  rcases hi with hi | rfl | rfl | ⟨rate, rfl⟩
  · obtain ⟨r, hrs, hrt⟩ := codecDependsOnOperandsAndConfigurationOnly i s t hi (by rw [h.cfg])
      (by rw [h.cfg]) (by rw [h.cfg])
    obtain rfl := Host.Outcome.next.inj (hrs.symm.trans hs)
    obtain rfl := Host.Outcome.next.inj (hrt.symm.trans ht)
    rw [State.rightView_answered, State.rightView_answered, hview]
  all_goals
    obtain rfl := Host.Outcome.next.inj hs
    obtain rfl := Host.Outcome.next.inj ht
    simp [apply_ite State.rightView, hview, h.cfg, h.active, h.faultOvf]

theorem sameButLeft_cases {i j : Instr} (h : sameButLeft i j) : (∃ l l' r, i = .push l r ∧ j = .push l' r) ∨ i = j := by
  unfold sameButLeft at h
  split at h
  · subst h
    exact .inl ⟨_, _, _, rfl, rfl⟩
  · exact .inr h

/-- A command and the same command, but for the left sample of a push, keep equal right views equal (R99). -/
theorem exec_rightView {i j : Instr} {s t s' t' : State} (hij : sameButLeft i j) (hview : s.rightView = t.rightView)
    (hs : exec i s = .next s') (ht : exec j t = .next t') : s'.rightView = t'.rightView := by
  have h := State.sameRight_of_rightView_eq hview
  rcases sameButLeft_cases hij with ⟨l, l', r, rfl, rfl⟩ | rfl
  · exact execPush_rightView hview hs ht
  cases i with
  | push => exact execPush_rightView hview hs ht
  | endframe =>
    refine rightView_eq_of_preCheck hview hs ht ?_
    simp [apply_ite State.rightView, Channel.frameOverflows_eq, hview, h.factor, h.right, h.left.pushOverflows_eq,
      h.left.position_eq, h.left.added_eq, h.left.avail, h.left.rd]
  | needed =>
    refine rightView_eq_of_preCheck hview hs ht ?_
    simp [apply_ite State.rightView, hview, h.factor, h.right, h.left.needed_eq]
  | avail =>
    refine rightView_eq_of_preCheck hview hs ht ?_
    simp [hview, h.right, h.left.avail]
  | pop =>
    refine rightView_eq_of_preCheck hview hs ht ?_
    simp [-List.map_zipWith, map_right_zipWith, Channel.pop_length, hview, h.cfg, h.right, h.left.popCount_eq,
      h.left.tick, h.left.offset, h.left.avail, h.left.rd]
  | start | stop | status => exact exec_rightView_of_no_data hview (by simp) hs ht
  | _ => exact exec_rightView_of_no_data hview (.inl rfl) hs ht

/-- Settles O51, by induction on the two lists of commands. -/
theorem leftDataNeverReachesTheRight : Obligations.LeftDataNeverReachesTheRight := by
  intro is js s t s' t' hsame
  induction hsame generalizing s t with
  | nil =>
    intro hview hs ht
    obtain rfl := Host.Outcome.next.inj hs
    obtain rfl := Host.Outcome.next.inj ht
    exact hview
  | @cons i j is js hij _ ih =>
    intro hview hs ht
    obtain ⟨s₁, hs₁⟩ := exec_total i s
    obtain ⟨t₁, ht₁⟩ := exec_total j t
    rw [runCommands_cons _ hs₁] at hs
    rw [runCommands_cons _ ht₁] at ht
    exact ih s₁ t₁ (exec_rightView hij hview hs₁ ht₁) hs ht

end Sys2Proof.Machine
end

section
/-! The codec unit's commands, each as one equation: the ten packers as the packing of two fields, the divider's two bytes,
the key bytes (R120 to R136). -/

namespace Sys2Proof.Machine

/-! ### Masked fields and packed words as numbers -/

/-- The mask of a field of `n` bits (R136). -/
def fieldMask (n : Nat) : Byte := BitVec.ofNat 8 (2 ^ n - 1)

theorem toNat_field {n : Nat} (hn : n ≤ 8) (v : Byte) : (field (fieldMask n) v).toNat = v.toNat % 2 ^ n := by
  have hmask : 2 ^ n - 1 < 2 ^ 8 := by
    have := Nat.pow_le_pow_right (by decide : 0 < 2) hn
    omega
  rw [field, fieldMask, BitVec.toNat_and, BitVec.toNat_ofNat, Nat.mod_eq_of_lt hmask, Nat.and_two_pow_sub_one_eq_mod]

theorem field_field (mask v : Byte) : field mask (field mask v) = field mask v := by
  rw [field, field, BitVec.and_assoc, BitVec.and_self]

/-- Shift and OR add up when the lower part ends below the shift and the upper part stays in the word. -/
theorem toNat_shiftLeft_or {w k : Nat} {x y : BitVec w} (hx : x.toNat * 2 ^ k < 2 ^ w) (hy : y.toNat < 2 ^ k) :
    (x <<< k ||| y).toNat = x.toNat * 2 ^ k + y.toNat := by
  rw [BitVec.toNat_or, BitVec.toNat_shiftLeft, Nat.shiftLeft_eq, Nat.mod_eq_of_lt hx, ← Nat.shiftLeft_eq,
    Nat.shiftLeft_add_eq_or_of_lt hy]

/-! ### The packing of two fields -/

/-- Where a packer's two fields stand in its byte: the upper one `high` bits wide from bit `shift` on, the lower one in the
`low` bits below (R120, R136). -/
structure Packing where
  high : Nat
  shift : Nat
  low : Nat
  low_le : low ≤ shift
  le_width : high + shift ≤ 8

/-- The packed byte, in the model's own operation. -/
def Packing.pack (p : Packing) (a b : Byte) : Byte := packTwo (fieldMask p.high) p.shift (fieldMask p.low) a b

/-- The OR of the shifted field masks, `M` of R135. -/
def Packing.mask (p : Packing) : Byte := (fieldMask p.high <<< p.shift) ||| fieldMask p.low

/-- The upper field taken out of a byte (R135). -/
def Packing.highOf (p : Packing) (v : Byte) : Byte := field (fieldMask p.high) (v >>> p.shift)

/-- The lower field taken out of a byte (R135). -/
def Packing.lowOf (p : Packing) (v : Byte) : Byte := field (fieldMask p.low) v

/-- The packed byte as a number, each field cut to its width and set at its place. -/
def Packing.number (p : Packing) (a b : Byte) : Nat := a.toNat % 2 ^ p.high * 2 ^ p.shift + b.toNat % 2 ^ p.low

namespace Packing

variable (p : Packing) (a b : Byte)

theorem high_le_eight : p.high ≤ 8 := (Nat.le_add_right _ _).trans p.le_width

theorem low_le_eight : p.low ≤ 8 := p.low_le.trans ((Nat.le_add_left _ _).trans p.le_width)

theorem mod_low_lt (n : Nat) : n % 2 ^ p.low < 2 ^ p.shift :=
  (Nat.mod_lt _ (Nat.two_pow_pos _)).trans_le (Nat.pow_le_pow_right (by decide) p.low_le)

theorem toNat_pack : (p.pack a b).toNat = p.number a b := by
  have hhigh := toNat_field p.high_le_eight a
  have hlow := toNat_field p.low_le_eight b
  have hx : (field (fieldMask p.high) a).toNat * 2 ^ p.shift < 2 ^ 8 := by
    calc (field (fieldMask p.high) a).toNat * 2 ^ p.shift
        < 2 ^ p.high * 2 ^ p.shift := by
          rw [hhigh]
          exact Nat.mul_lt_mul_of_pos_right (Nat.mod_lt _ (Nat.two_pow_pos _)) (Nat.two_pow_pos _)
      _ = 2 ^ (p.high + p.shift) := (Nat.pow_add ..).symm
      _ ≤ 2 ^ 8 := Nat.pow_le_pow_right (by decide) p.le_width
  have hy : (field (fieldMask p.low) b).toNat < 2 ^ p.shift := by
    rw [hlow]
    exact p.mod_low_lt _
  rw [pack, packTwo, toNat_shiftLeft_or hx hy, hhigh, hlow, number]

/-- A packed byte has no bit outside the fields: each half was cut by its own part of the mask. -/
theorem pack_and_mask : p.pack a b &&& p.mask = p.pack a b := by
  refine BitVec.eq_of_getLsbD_eq fun i _ => ?_
  simp only [pack, packTwo, mask, field, BitVec.getLsbD_and, BitVec.getLsbD_or, BitVec.getLsbD_shiftLeft]
  grind

theorem highOf_pack : p.highOf (p.pack a b) = field (fieldMask p.high) a := by
  apply BitVec.eq_of_toNat_eq
  rw [highOf, toNat_field p.high_le_eight, toNat_field p.high_le_eight, BitVec.toNat_ushiftRight,
    Nat.shiftRight_eq_div_pow, toNat_pack, number, Nat.mul_comm, Nat.mul_add_div (Nat.two_pow_pos _),
    Nat.div_eq_of_lt (p.mod_low_lt _), Nat.add_zero, Nat.mod_mod]

theorem lowOf_pack : p.lowOf (p.pack a b) = field (fieldMask p.low) b := by
  have hdvd : 2 ^ p.low ∣ a.toNat % 2 ^ p.high * 2 ^ p.shift := (pow_dvd_pow 2 p.low_le).mul_left _
  apply BitVec.eq_of_toNat_eq
  rw [lowOf, toNat_field p.low_le_eight, toNat_field p.low_le_eight, toNat_pack, number, Nat.add_mod,
    Nat.mod_eq_zero_of_dvd hdvd, Nat.zero_add, Nat.mod_mod, Nat.mod_mod]

/-- Packing the fields taken out of a packed byte gives it again (R135). -/
theorem pack_fields : p.pack (p.highOf (p.pack a b)) (p.lowOf (p.pack a b)) = p.pack a b := by
  rw [highOf_pack, lowOf_pack, pack, pack, packTwo, packTwo, field_field, field_field]

end Packing

/-! ### The ten packers -/

/-- A packer's fields with its two operands; a packer of one field has an upper field of no bits. -/
def packing : Instr → Option (Packing × Byte × Byte)
  | .fbAl fb al => some (⟨3, 3, 3, by decide, by decide⟩, fb, al)
  | .lfoFreq freq => some (⟨0, 4, 4, by decide, by decide⟩, 0, freq)
  | .amsPms ams pms => some (⟨2, 4, 3, by decide, by decide⟩, ams, pms)
  | .dtMl dt ml => some (⟨3, 4, 4, by decide, by decide⟩, dt, ml)
  | .tl level => some (⟨0, 6, 6, by decide, by decide⟩, 0, level)
  | .ksAr ks ar => some (⟨2, 6, 5, by decide, by decide⟩, ks, ar)
  | .amDr am dr => some (⟨1, 7, 5, by decide, by decide⟩, bitByte am, dr)
  | .sr rate => some (⟨0, 5, 5, by decide, by decide⟩, 0, rate)
  | .slRr sl rr => some (⟨4, 4, 4, by decide, by decide⟩, sl, rr)
  | .ssgEg e => some (⟨0, 4, 4, by decide, by decide⟩, 0, e)
  | _ => none

theorem exec_of_packing {i : Instr} {p : Packing} {a b : Byte} (h : packing i = some (p, a, b)) (s : State) :
    exec i s = .next (s.done (byteWord (p.pack a b))) := by
  cases i
  case fbAl | amsPms | dtMl | ksAr | amDr | slRr =>
    cases h
    rfl
  case lfoFreq v | tl v | sr v | ssgEg v =>
    cases h
    exact congrArg (fun x => Host.Outcome.next (s.done (byteWord x))) BitVec.zero_or.symm
  all_goals cases h

theorem toNat_bitByte (am : Bool) : (bitByte am).toNat % 2 = am.toNat := by
  cases am <;> rfl

theorem packing_of_packedNumber {i : Instr} {n : Nat} (h : packedNumber i = some n) :
    ∃ p a b, packing i = some (p, a, b) ∧ p.number a b = n := by
  cases i
  case fbAl | amsPms | dtMl | ksAr | slRr =>
    cases h
    exact ⟨_, _, _, rfl, rfl⟩
  case amDr am dr =>
    cases h
    exact ⟨_, _, _, rfl, congrArg (· * 128 + dr.toNat % 32) (toNat_bitByte am)⟩
  case lfoFreq | tl | sr | ssgEg =>
    cases h
    exact ⟨_, _, _, rfl, Nat.zero_add _⟩
  all_goals cases h

/-- `AM_DR`'s bit taken out of a byte, as a byte (R128, R135). -/
theorem bitByte_getLsbD (v : Byte) : bitByte (v.getLsbD 7) = field 1 (v >>> 7) := by
  have hbit : ∀ am, bitByte am = (BitVec.ofBool am).setWidth 8 := by decide
  have hshift : (v >>> 7).getLsbD 0 = v.getLsbD 7 := BitVec.getLsbD_ushiftRight v 7 0
  rw [hbit, ← hshift]
  exact BitVec.and_one_eq_setWidth_ofBool_getLsbD.symm

/-- A packer's mask is that of its fields, and its fields taken out of a byte are the operands of the same packer (R135). -/
theorem repacked_of_packing {i : Instr} {p : Packing} {a b : Byte} (h : packing i = some (p, a, b)) (v : Byte) :
    ∃ j, repacked v i = some (p.mask, j) ∧ packing j = some (p, p.highOf v, p.lowOf v) := by
  cases i
  case fbAl | amsPms | dtMl | ksAr | slRr =>
    cases h
    exact ⟨_, rfl, rfl⟩
  case amDr =>
    cases h
    refine ⟨_, rfl, ?_⟩
    rw [packing, bitByte_getLsbD]
    rfl
  case lfoFreq | tl | sr | ssgEg =>
    cases h
    exact ⟨_, rfl, congrArg (fun x => some (_, x, _)) BitVec.and_zero.symm⟩
  all_goals cases h

theorem byteWord_eq_ofNat (v : Byte) : byteWord v = BitVec.ofNat 32 v.toNat :=
  (BitVec.ofNat_toNat 32 v).symm

theorem amField_eq (w : CmdWord) : amField w = (aField w).getLsbD 0 := by
  simp [amField, aField]

/-- Settles O34: every packer is the packing of its fields, and that byte is the number of the statement. -/
theorem packersResult : Obligations.PackersResult := by
  refine ⟨fun w => ?_, fun i n s hn => ?_⟩
  · rw [← amField_eq]
    refine ⟨?_, ?_, ?_, ?_, ?_, ?_, ?_, ?_, ?_, ?_⟩
    all_goals
      intro hop
      rw [decode, hop]
      rfl
  · obtain ⟨p, a, b, hp, rfl⟩ := packing_of_packedNumber hn
    rw [exec_of_packing hp, byteWord_eq_ofNat, p.toNat_pack]
    rfl

/-- Settles O35: the byte is the packing of the two fields, which is what the fields taken out of it are packed to. -/
theorem packersAreIdempotent : Obligations.PackersAreIdempotent := by
  intro i n s hn
  obtain ⟨p, a, b, hp, -⟩ := packing_of_packedNumber hn
  obtain ⟨j, hj, hpj⟩ := repacked_of_packing hp (p.pack a b)
  refine ⟨p.pack a b, p.mask, j, hj, p.pack_and_mask a b, exec_of_packing hp s, ?_⟩
  rw [exec_of_packing hpj, p.pack_fields]
  rfl

/-! ### The note commands -/

theorem decode_noteFnum {w : CmdWord} (h : opField w = 0x1A) : decode w = .command (.noteFnum (aField w) (bField w)) := by
  rw [decode, h]
  rfl

theorem decode_keyOn {w : CmdWord} (h : opField w = 0x1B) : decode w = .command (.keyOn (bField w)) := by
  rw [decode, h]
  rfl

theorem decode_keyOff {w : CmdWord} (h : opField w = 0x1C) : decode w = .command (.keyOff (bField w)) := by
  rw [decode, h]
  rfl

theorem pitchIndex_eq (pitch : Byte) : pitchIndex pitch = pitch.toNat % 16 :=
  toNat_field (n := 4) (by decide) pitch

theorem toNat_fnumLow (f : BitVec 11) : (fnumLow f).toNat = f.toNat % 256 := by
  simp [fnumLow]

theorem toNat_fnumHigh (octave : Byte) (f : BitVec 11) :
    (fnumHigh octave f).toNat = octave.toNat % 8 * 8 + f.toNat / 256 := by
  have hoct : (field 0x7 octave).toNat = octave.toNat % 8 := toNat_field (n := 3) (by decide) octave
  have hblock : ((f.extractLsb' 8 3).setWidth 8).toNat = f.toNat / 256 := by
    have := f.isLt
    simp only [BitVec.toNat_setWidth, BitVec.extractLsb'_toNat, Nat.shiftRight_eq_div_pow]
    omega
  rw [fnumHigh, toNat_shiftLeft_or (by omega) (by omega), hoct, hblock]
  rfl

/-- The two bytes of `NOTE_FNUM` as one number: the octave's three bits above the divider (R132). -/
theorem fnumWord_eq (octave : Byte) (f : BitVec 11) :
    fnumWord octave f = BitVec.ofNat 32 (octave.toNat % 8 * 2048 + f.toNat) := by
  have hhigh : (byteWord (fnumHigh octave f)).toNat = octave.toNat % 8 * 8 + f.toNat / 256 := by
    rw [byteWord, BitVec.toNat_setWidth_of_le (by decide), toNat_fnumHigh]
  have hlow : (byteWord (fnumLow f)).toNat = f.toNat % 256 := by
    rw [byteWord, BitVec.toNat_setWidth_of_le (by decide), toNat_fnumLow]
  have hf := f.isLt
  apply BitVec.eq_of_toNat_eq
  rw [fnumWord, toNat_shiftLeft_or (by omega) (by omega), hhigh, hlow, BitVec.toNat_ofNat]
  omega

/-- Settles O36. -/
theorem noteFnumResult : Obligations.NoteFnumResult := by
  refine ⟨fun _ => decode_noteFnum, fun octave pitch s => ?_⟩
  simp only [exec, execNoteFnum, pitchIndex_eq, fnumWord_eq]
  split
  · rfl
  · rfl

theorem skipsChannel_iff (ch : Byte) : skipsChannel ch = true ↔ 6 ≤ ch.toNat := decide_eq_true_iff

theorem chBits_eq (cfg : Config) (ch : Byte) :
    chBits cfg ch = if ch.toNat < 3 then ch else cfg.highBankFlag ||| (ch - 3) := rfl

/-- A key command's answer over the three ranges of channel numbers, `key` the use it makes of `chbits` (R133, R134). -/
theorem keyAnswer_eq (key : Byte → Byte) (ch : Byte) (s : State) :
    (if skipsChannel ch then s.done skipWord else s.done (byteWord (key (chBits s.cfg ch)))) =
    { s with rsp := some ⟨true, if 6 ≤ ch.toNat then 0x100
      else if ch.toNat < 3 then (key ch).setWidth 32
      else (key (s.cfg.highBankFlag ||| (ch - 3))).setWidth 32, []⟩ } := by
  simp only [skipsChannel_iff, chBits_eq]
  split
  · rfl
  split
  · rfl
  · rfl

/-- Settles O37. -/
theorem keyOnResult : Obligations.KeyOnResult :=
  ⟨fun _ => decode_keyOn, fun ch s => congrArg Host.Outcome.next (keyAnswer_eq (s.cfg.slotFlags ||| ·) ch s)⟩

/-- Settles O38. -/
theorem keyOffResult : Obligations.KeyOffResult :=
  ⟨fun _ => decode_keyOff, fun ch s => congrArg Host.Outcome.next (keyAnswer_eq (~~~s.cfg.slotFlags &&& ·) ch s)⟩

end Sys2Proof.Machine
end

section
/-! What a sequence of the host does at the port (R70, R159): a command that it issues is carried out at once, and it goes
on with the response. -/

namespace Sys2Proof.Machine

/-! ### Issuing a command -/

/-- The session with `r` as the hardware's last response and nothing else changed. -/
def Session.answered (r : Response) (h : Session) : Session := { h with hw := { h.hw with rsp := some r } }

@[simp] theorem Session.answered_engineUp (r : Response) (h : Session) : (h.answered r).engineUp = h.engineUp := rfl
@[simp] theorem Session.answered_log (r : Response) (h : Session) : (h.answered r).log = h.log := rfl
@[simp] theorem Session.answered_cfg (r : Response) (h : Session) : (h.answered r).hw.cfg = h.hw.cfg := rfl
@[simp] theorem Session.answered_factor (r : Response) (h : Session) : (h.answered r).hw.factor = h.hw.factor := rfl
@[simp] theorem Session.answered_left (r : Response) (h : Session) : (h.answered r).hw.left = h.hw.left := rfl

theorem Session.answered_sameHardware (r : Response) (h : Session) : (h.answered r).hw.SameHardware h.hw :=
  ⟨rfl, rfl, rfl, rfl, rfl, rfl⟩

/-- Every command is answered (R61). -/
theorem Effect.exists_rsp {i : Instr} {s t : State} (h : Effect i s t) : ∃ r, t.rsp = some r := by
  cases h with
  | _ => exact ⟨_, rfl⟩

theorem exec_answers (i : Instr) (s : State) : ∃ t r, exec i s = .next t ∧ t.rsp = some r := by
  obtain ⟨t, ht⟩ := exec_total i s
  obtain ⟨r, hr⟩ := (exec_effect ht).exists_rsp
  exact ⟨t, r, ht, hr⟩

section
variable {α : Type} {i : Instr} {h : Session} {r : Response} (k : Response → Session → MacroResult α)

/-- A well-formed command is carried out whole and answered before the host goes on (R50, R159). -/
theorem Session.issue_of_exec {s : State} (hi : i.wellFormed = true) (he : exec i h.hw = .next s)
    (hr : s.rsp = some r) : h.issue i k = k r { h with hw := s } := by
  have hstep : step (h.hw.issue (encode i)) = .next s := by
    rw [step, State.takeCommand_issue]
    simp only [decode_encode hi, he]
  rw [Session.issue_of_step k hstep, hr, Option.getD_some]

/-- A command that changes no register leaves the host with its response. -/
theorem Session.issue_of_answer (hi : i.wellFormed = true) (he : exec i h.hw = .next { h.hw with rsp := some r }) :
    h.issue i k = k r (h.answered r) :=
  Session.issue_of_exec k hi he rfl

end

/-! ### The question whether a session is open -/

/-- The response to `STATUS` (R92). -/
def State.statusResponse (s : State) : Response := ⟨true, statusWord s.active s.faultOvf, []⟩

@[simp] theorem State.statusResponse_flag (s : State) : s.statusResponse.flag = s.active := by
  rw [Response.flag, State.statusResponse]
  cases s.active <;> cases s.faultOvf <;> rfl

/-- The boolean answer of `START` and `STOP` is read back from bit 0 (R25). -/
@[simp] theorem Response.flag_boolWord (b : Bool) : (⟨true, boolWord b, []⟩ : Response).flag = b := by
  cases b <;> rfl

/-- Every sequence of the host first issues `STATUS` (R152 to R157). -/
theorem Session.issue_status {α : Type} (h : Session) (k : Response → Session → MacroResult α) :
    h.issue .status k = k h.hw.statusResponse (h.answered h.hw.statusResponse) :=
  Session.issue_of_answer k rfl rfl

end Sys2Proof.Machine
end

section
/-! Opening and closing a session (R152, R153). -/

namespace Sys2Proof.Machine

/-- An open session: the unit is active and the engine exists (R151). -/
abbrev Session.Open (h : Session) : Prop := h.hw.active = true ∧ h.engineUp = true

/-- `SESSION_START` of an idle session at a usable rate, the engine created, leaves both open (R80, R152). -/
theorem Session.start_idle (p : HostParams) (d : Bool) {rate : Nat} {h : Session} (ha : h.hw.active = false)
    (he : h.engineUp = false) (hfits : rate < 2 ^ 32) (hr : rateUnusable h.hw.cfg.nativeRate rate = false) :
    ∃ h', h.start p true d rate = .next (h', true) ∧ h'.Open := by
  have hwf : (Instr.start rate).wellFormed = true := decide_eq_true hfits
  have hstart := execStart_accepted (s := (((h.answered h.hw.statusResponse).engineCreate true).2.engine .reset).hw) ha hr
  rw [Session.start, Session.issue_status]
  simp only [State.statusResponse_flag, ha, Session.engineCreate_answer, Session.answered_engineUp, he, Bool.not_false,
    Bool.not_true, Bool.and_self, Bool.false_eq_true, if_false, Session.issue_of_exec _ hwf hstart rfl,
    Response.flag_boolWord, Bool.or_self]
  -- The register writes that follow are operations of the engine and leave the session open.
  exact ⟨_, rfl, List.foldlRecOn (motive := Session.Open) _ _
    (List.foldlRecOn (motive := Session.Open) _ _ ⟨rfl, by simp [he]⟩ fun _ hopen _ _ => hopen) fun _ hopen _ _ => hopen⟩

/-- `SESSION_START` of an open session fails and touches nothing (R152). -/
theorem Session.start_active (p : HostParams) (c d : Bool) (rate : Nat) {h : Session} (ha : h.hw.active = true) :
    h.start p c d rate = .next (h.answered h.hw.statusResponse, false) := by
  rw [Session.start, Session.issue_status]
  simp [ha, Session.return]

/-- `SESSION_STOP` of an open session whose engine can be destroyed (R153). -/
theorem Session.stop_open {h : Session} (hopen : h.Open) :
    ∃ h', h.stop true = .next (h', true) ∧ h'.hw.active = false ∧ h'.engineUp = false := by
  obtain ⟨ha, he⟩ := hopen
  rw [Session.stop, Session.issue_status]
  have hstop := execStop_active (s := ((h.answered h.hw.statusResponse).engineDestroy true).2.hw) ha
  simp only [State.statusResponse_flag, ha, Bool.not_true, Bool.false_eq_true, if_false,
    Session.issue_of_exec _ rfl hstop rfl, Session.engineDestroy_answer, Session.answered_engineUp, he,
    Response.flag_boolWord, Bool.and_self]
  exact ⟨_, rfl, rfl, by simp [he]⟩

/-- `SESSION_STOP` of an idle session fails and asks nothing of the engine (R153). -/
theorem Session.stop_inactive (d : Bool) {h : Session} (ha : h.hw.active = false) :
    h.stop d = .next (h.answered h.hw.statusResponse, false) := by
  rw [Session.stop, Session.issue_status]
  simp [ha, Session.return]

/-- Settles O52. -/
theorem sessionLifecycle : Obligations.SessionLifecycle := by
  intro p d rate h ha he hfits hrate
  have hr : rateUnusable h.hw.cfg.nativeRate rate = false := by
    rwa [← Bool.not_eq_true, rateUnusable_iff]
  obtain ⟨h₁, hstart, ha₁, he₁⟩ := Session.start_idle p d ha he hfits hr
  obtain ⟨h₃, hstop, ha₃, he₃⟩ := Session.stop_open ⟨ha₁, he₁⟩
  exact ⟨h₁, hstart, ha₁, he₁,
    fun c d' rate' => ⟨_, Session.start_active p c d' rate' ha₁, h₁.answered_sameHardware _, he₁, rfl⟩,
    h₃, hstop, ha₃, he₃, _, Session.stop_inactive true ha₃, rfl⟩

end Sys2Proof.Machine
end

section
/-! Writing chip registers by `SET_TONE`, `NOTE_ON` and `NOTE_OFF` (R154 to R156): each byte is a codec command's answer, and
no command changes a register of the hardware. -/

namespace Sys2Proof.Machine

/-! ### `SET_TONE` -/

theorem extractLsb'_ofNat_low (n : Nat) : (BitVec.ofNat 32 n).extractLsb' 0 8 = BitVec.ofNat 8 n := by
  apply BitVec.eq_of_toNat_eq
  rw [BitVec.extractLsb'_toNat, BitVec.toNat_ofNat, BitVec.toNat_ofNat]
  omega

theorem wellFormed_of_packedNumber {i : Instr} {n : Nat} (h : packedNumber i = some n) : i.wellFormed = true := by
  cases i with
  | start | push | needed | pop => cases h
  | _ => rfl

/-- The engine operations of one write of `SET_TONE`, its byte as the packer's number (R154, R136). -/
def ToneWrite.operations (w : ToneWrite) : List EngineOp :=
  [.write .low w.addr (w.orBits ||| BitVec.ofNat 8 ((packedNumber w.command).getD 0)),
   .write .high w.addr (w.orBits ||| BitVec.ofNat 8 ((packedNumber w.command).getD 0))]

/-- Writes whose commands are packers are made in order, each to both banks (R154). -/
theorem Session.applyWrites_packers (ws : List ToneWrite) : ∀ h : Session,
    (∀ w ∈ ws, (packedNumber w.command).isSome = true) →
    ∃ h', h.applyWrites ws = .next (h', ()) ∧ h'.hw.SameHardware h.hw ∧
      h'.log = h.log ++ ws.flatMap ToneWrite.operations := by
  induction ws with
  | nil => exact fun h _ => ⟨h, rfl, ⟨rfl, rfl, rfl, rfl, rfl, rfl⟩, by simp⟩
  | cons w ws ih =>
    intro h hws
    obtain ⟨hw, hws⟩ := List.forall_mem_cons.1 hws
    obtain ⟨n, hn⟩ := Option.isSome_iff_exists.1 hw
    rw [Session.applyWrites, Session.issue_of_answer _ (wellFormed_of_packedNumber hn) (packersResult.2 _ _ _ hn)]
    obtain ⟨h', hrun, hsame, hlog⟩ := ih _ hws
    refine ⟨h', hrun, hsame, ?_⟩
    simp [hlog, ToneWrite.operations, Response.byte, extractLsb'_ofNat_low, hn]

theorem isSome_packedNumber_operatorWrites (p : HostParams) (x : Byte) (op : FmOperator) :
    ∀ w ∈ operatorWrites p x op, (packedNumber w.command).isSome = true := by
  simp [operatorWrites, packedNumber]

/-- Every command of `SET_TONE` is a packer (R154). -/
theorem isSome_packedNumber_toneWrites (p : HostParams) (tone : FmTone) :
    ∀ w ∈ toneWrites p tone, (packedNumber w.command).isSome = true := by
  intro w hw
  rcases List.mem_cons.1 hw with rfl | hw
  · rfl
  obtain ⟨s, -, hw⟩ := List.mem_flatMap.1 hw
  rcases List.mem_append.1 hw with hw | hw
  · rcases List.mem_pair.1 hw with rfl | rfl
    · rfl
    · rfl
  · obtain ⟨q, -, hw⟩ := List.mem_flatMap.1 hw
    exact isSome_packedNumber_operatorWrites p _ _ w hw

/-- Settles O53: the list of writes is that of `toneWrites`, 91 writes to two banks each. -/
theorem setToneWrites : Obligations.SetToneWrites := by
  intro p tone h
  rw [Session.setTone, Session.issue_status]
  cases ha : h.hw.active with
  | false =>
    rw [State.statusResponse_flag, ha]
    exact ⟨_, rfl, h.answered_sameHardware _, fun _ => rfl, nofun⟩
  | true =>
    rw [State.statusResponse_flag, ha]
    obtain ⟨h', hrun, hsame, hlog⟩ := Session.applyWrites_packers _ (h.answered h.hw.statusResponse)
      (isSome_packedNumber_toneWrites p tone)
    refine ⟨h', hrun, hsame, nofun, fun _ => ⟨?_, hlog⟩⟩
    rw [hlog, List.length_append]
    rfl

/-! ### `NOTE_ON` and `NOTE_OFF` -/

/-- The response of a key command: the byte, or `skip` for a channel of 6 or more (R133, R134). -/
def keyResponse (ch byte : Byte) : Response := ⟨true, if 6 ≤ ch.toNat then skipWord else byteWord byte, []⟩

/-- A byte in the response word comes back from its low bits. -/
theorem extractLsb'_byteWord (byte : Byte) : (byteWord byte).extractLsb' 0 8 = byte := by
  rw [byteWord_eq_ofNat, extractLsb'_ofNat_low, BitVec.ofNat_toNat, BitVec.setWidth_eq]

theorem keyResponse_skip (ch byte : Byte) : (keyResponse ch byte).skip = decide (6 ≤ ch.toNat) := by
  by_cases hch : 6 ≤ ch.toNat
  · simp [keyResponse, Response.skip, hch, skipWord]
  · simp [keyResponse, Response.skip, hch, byteWord]

theorem keyResponse_byte {ch : Byte} (hch : ¬ 6 ≤ ch.toNat) (byte : Byte) : (keyResponse ch byte).byte = byte := by
  rw [keyResponse, if_neg hch, Response.byte, extractLsb'_byteWord]

/-- The answer of a key command with byte `byte`, as the model words it. -/
theorem answer_keyResponse (ch byte : Byte) (s : State) :
    (if skipsChannel ch then s.done skipWord else s.done (byteWord byte)) =
      { s with rsp := some (keyResponse ch byte) } := by
  simp only [skipsChannel_iff, keyResponse]
  split
  · rfl
  · rfl

theorem exec_keyOn (ch : Byte) (s : State) : exec (.keyOn ch) s =
    .next { s with rsp := some (keyResponse ch (s.cfg.slotFlags ||| chBits s.cfg ch)) } :=
  congrArg Host.Outcome.next (answer_keyResponse ch _ s)

theorem exec_keyOff (ch : Byte) (s : State) : exec (.keyOff ch) s =
    .next { s with rsp := some (keyResponse ch (~~~s.cfg.slotFlags &&& chBits s.cfg ch)) } :=
  congrArg Host.Outcome.next (answer_keyResponse ch _ s)

/-- Settles O55. -/
theorem noteOffWrites : Obligations.NoteOffWrites := by
  intro ch h
  rw [Session.noteOff, Session.issue_status]
  cases ha : h.hw.active with
  | false =>
    rw [State.statusResponse_flag, ha]
    exact ⟨_, rfl, h.answered_sameHardware _, by simp⟩
  | true =>
    rw [State.statusResponse_flag, ha, Bool.not_true, if_neg Bool.false_ne_true,
      Session.issue_of_answer _ rfl (exec_keyOff ch _), keyResponse_skip]
    by_cases hch : 6 ≤ ch.toNat
    · exact ⟨_, if_pos (decide_eq_true hch), ⟨rfl, rfl, rfl, rfl, rfl, rfl⟩, by simp [hch]⟩
    · refine ⟨_, if_neg (by simpa using hch), ⟨rfl, rfl, rfl, rfl, rfl, rfl⟩, ?_⟩
      simp [hch, keyResponse_byte, Param.addrKey, chBits_eq]

theorem channelBank_eq (ch : Byte) : channelBank ch = if ch.toNat < 3 then .low else .high := rfl

theorem channelSlot_eq (ch : Byte) : channelSlot ch = BitVec.ofNat 8 (ch.toNat % 3) := rfl

/-- The response of `NOTE_FNUM` for a note name (R132). -/
def fnumResponse (cfg : Config) (octave : Byte) (pitch : PitchClass) : Response :=
  ⟨true, fnumWord octave (fnumAt cfg pitch.index.toNat), []⟩

theorem fnumResponse_byte (cfg : Config) (octave : Byte) (pitch : PitchClass) :
    (fnumResponse cfg octave pitch).byte = BitVec.ofNat 8 ((cfg.fnumTable.getD pitch.index.toNat 0).toNat % 256) := by
  rw [Response.byte, fnumResponse, fnumWord_eq, extractLsb'_ofNat_low]
  apply BitVec.eq_of_toNat_eq
  rw [BitVec.toNat_ofNat, BitVec.toNat_ofNat, fnumAt]
  omega

theorem fnumResponse_highByte (cfg : Config) (octave : Byte) (pitch : PitchClass) :
    (fnumResponse cfg octave pitch).highByte =
      BitVec.ofNat 8 (octave.toNat % 8 * 8 + (cfg.fnumTable.getD pitch.index.toNat 0).toNat / 256) := by
  rw [Response.highByte, fnumResponse, fnumWord_eq]
  apply BitVec.eq_of_toNat_eq
  rw [BitVec.extractLsb'_toNat, BitVec.toNat_ofNat, BitVec.toNat_ofNat, Nat.shiftRight_eq_div_pow, fnumAt]
  omega

/-- The index of a note name is below 12, so `NOTE_FNUM` is not refused (R44, R132). -/
theorem exec_noteFnum_pitchClass (octave : Byte) (pitch : PitchClass) (s : State) : exec (.noteFnum octave pitch.index) s =
    .next { s with rsp := some (fnumResponse s.cfg octave pitch) } := by
  have hindex : pitchIndex pitch.index = pitch.index.toNat ∧ ¬ 11 < pitch.index.toNat := by cases pitch <;> decide
  rw [exec, execNoteFnum, hindex.1, if_neg hindex.2]
  rfl

/-- Settles O54. -/
theorem noteOnWrites : Obligations.NoteOnWrites := by
  intro p ch octave pitch h
  rw [Session.noteOn, Session.issue_status]
  cases ha : h.hw.active with
  | false =>
    rw [State.statusResponse_flag, ha]
    exact ⟨_, rfl, h.answered_sameHardware _, by simp⟩
  | true =>
    rw [State.statusResponse_flag, ha, Bool.not_true, if_neg Bool.false_ne_true,
      Session.issue_of_answer _ rfl (exec_keyOn ch _), keyResponse_skip]
    by_cases hch : 6 ≤ ch.toNat
    · exact ⟨_, if_pos (decide_eq_true hch), ⟨rfl, rfl, rfl, rfl, rfl, rfl⟩, by simp [hch]⟩
    · rw [if_neg (by simpa using hch), Session.issue_of_answer _ rfl (exec_noteFnum_pitchClass octave pitch _)]
      refine ⟨_, rfl, ⟨rfl, rfl, rfl, rfl, rfl, rfl⟩, ?_⟩
      simp [hch, keyResponse_byte, Param.addrKey, chBits_eq, fnumResponse_byte, fnumResponse_highByte, channelBank_eq,
        channelSlot_eq]

end Sys2Proof.Machine
end

section
/-! `GENERATE` (R157): its commands as a run of pushes and the end of a frame, what that frame delivers by R93, and why it does
not overflow where a tick is worth at most one sample (log entry 14). -/

namespace Sys2Proof.Machine

/-- Settles O57. -/
theorem generateWithoutSessionWritesNothing : Obligations.GenerateWithoutSessionWritesNothing := by
  intro engine count h ha
  rw [Session.generate, Session.issue_status, State.statusResponse_flag, ha]
  exact ⟨_, rfl, h.answered_sameHardware _, rfl⟩

/-! ### A frame that does not overflow -/

/-- A frame of a ready unit that ends within `CAPACITY` has no fault: no push before its end begins further on (R83, R85). -/
theorem faultOvf_eq_false_of_pushIndex_le {xs : List (Int × Int)} : ∀ {s t : State},
    runCommands (pushes xs ++ [.endframe]) s = .next t → s.Ready →
    (s.left.pushAll s.cfg s.factor (xs.map Prod.fst)).pushIndex s.factor ≤ Param.capacity →
    (s.right.pushAll s.cfg s.factor (xs.map Prod.snd)).pushIndex s.factor ≤ Param.capacity → t.faultOvf = false := by
  induction xs with
  | nil =>
    rintro s t h ⟨ha, hf⟩ hl hr
    obtain rfl := Host.Outcome.next.inj ((runCommands_cons [] (execEndframe_accepted ha hf hl hr)).symm.trans h)
    exact hf
  | cons x xs ih =>
    rintro s t h ⟨ha, hf⟩ hl hr
    have hfirstl := (Channel.pushIndex_le_pushAll _ _ _ _).trans hl
    have hfirstr := (Channel.pushIndex_le_pushAll _ _ _ _).trans hr
    have hpush := execPush_accepted (l := x.1) (r := x.2) ha hf hfirstl hfirstr
    exact ih ((runCommands_cons _ hpush).symm.trans h) ⟨ha, hf⟩ hl hr

theorem State.Lockstep.needed_eq {s : State} (h : s.Lockstep) (f n : Nat) : s.right.needed f n = s.left.needed f n := by
  obtain ⟨-, hoffset, -, -⟩ := h
  rw [Channel.needed, Channel.needed, hoffset]

/-- With a tick worth at most one sample, the pushes that `NEEDED n` asks for bring no more than `n` samples (R87): the last
of them is needed, and brings at most one. -/
theorem Channel.pushIndex_pushAll_needed_le (cfg : Config) {f n : Nat} {c : Channel} {vs : List Int} (hf : 0 < f)
    (hslow : f ≤ 2 ^ 32) (ht : c.tick = 0) (ho : c.offset < 2 ^ 32) (hlen : vs.length = c.needed f n) :
    (c.pushAll cfg f vs).pushIndex f ≤ c.avail + n := by
  have hnow : c.now f = c.avail * 2 ^ 32 + c.offset := by
    rw [Channel.now, Channel.position, ht, zero_mul, zero_add, Param.timeBits_eq]
  rw [Channel.pushIndex_eq_now_div, Channel.now_pushAll, hnow, hlen]
  cases hm : c.needed f n with
  | zero => omega
  | succ m =>
    have hfewer : ¬ c.needed f n ≤ m := by omega
    rw [Channel.needed_le_iff hf] at hfewer
    rw [Nat.succ_mul]
    omega

/-- The pushes that `NEEDED n` asks for bring at least `n` samples (R93). -/
theorem Channel.avail_add_le_of_needed (cfg : Config) {f n : Nat} {c : Channel} {vs : List Int} (hf : 0 < f)
    (ht : c.tick = 0) (hlen : vs.length = c.needed f n) : c.avail + n ≤ ((c.pushAll cfg f vs).endFrame f).avail := by
  rw [Channel.avail_of_frame _ _ _ ht]
  exact Nat.add_le_add_left ((Channel.needed_le_iff hf).1 hlen.ge) _

section
variable {s t : State} {n : Nat} {xs : List (Int × Int)} (hrun : runCommands (pushes xs ++ [.endframe]) s = .next t)
  (hs : s.Ready) (hlock : s.Lockstep) (hf : 0 < s.factor) (ht : s.left.tick = 0)
  (hlen : xs.length = s.left.needed s.factor n)
include hrun hs hlock hf ht hlen

/-- A frame of as many pushes as `NEEDED n` asks for, unless it overflows (R85, R93). -/
theorem State.delivered_of_needed_frame (hok : t.faultOvf = false) :
    t.Ready ∧ (s.left.avail + n ≤ t.left.avail ∧ s.left.avail + n ≤ t.right.avail) ∧ t.left.tick = 0 ∧ t.right.tick = 0 := by
  obtain ⟨htick, -, havail, -⟩ := id hlock
  obtain ⟨hsame, -, -⟩ := runCommands_frame hrun hs hok
  refine ⟨hsame.ready_iff.2 hs, ?_⟩
  obtain ⟨-, -, -, -, hleft, hright⟩ := hsame
  rw [hleft, hright, State.afterFrame, State.setChannels_left, State.setChannels_right]
  refine ⟨⟨?_, ?_⟩, rfl, rfl⟩
  · exact Channel.avail_add_le_of_needed s.cfg hf ht (by rw [List.length_map, hlen])
  · rw [havail]
    exact Channel.avail_add_le_of_needed s.cfg hf (htick ▸ ht) (by rw [List.length_map, hlen, hlock.needed_eq])

/-- Where a tick is worth at most one sample, that frame fits if the samples asked for do (R83, R85). -/
theorem State.faultOvf_eq_false_of_needed_frame (hslow : s.factor ≤ 2 ^ 32) (ho : s.left.offset < 2 ^ 32)
    (hroom : s.left.avail + n ≤ Param.capacity) : t.faultOvf = false := by
  obtain ⟨htick, hoffset, havail, -⟩ := id hlock
  refine faultOvf_eq_false_of_pushIndex_le hrun hs ?_ ?_
  · exact (Channel.pushIndex_pushAll_needed_le s.cfg hf hslow ht ho (by rw [List.length_map, hlen])).trans hroom
  · rw [havail] at hroom
    exact (Channel.pushIndex_pushAll_needed_le s.cfg hf hslow (htick ▸ ht) (hoffset ▸ ho)
      (by rw [List.length_map, hlen, hlock.needed_eq])).trans hroom

end

/-! ### The commands of `GENERATE` -/

theorem runCommands_append_of_next {is : List Instr} (js : List Instr) : ∀ {s t : State}, runCommands is s = .next t →
    runCommands (is ++ js) s = runCommands js t := by
  induction is with
  | nil =>
    intro s t h
    obtain rfl := Host.Outcome.next.inj h
    rfl
  | cons i is ih =>
    intro s t h
    obtain ⟨m, hm⟩ := exec_total i s
    rw [runCommands_cons _ hm] at h
    rw [List.cons_append, runCommands_cons _ hm]
    exact ih h

/-- The engine's samples of `m` native ticks from tick `t` on. -/
def engineSamples (engine : Nat → Int × Int) (m t : Nat) : List (Int × Int) := (List.range' t m).map engine

theorem engineSamples_length (engine : Nat → Int × Int) (m t : Nat) : (engineSamples engine m t).length = m := by
  rw [engineSamples, List.length_map, List.length_range']

/-- The part of `GENERATE` that makes `n` samples, the frame that `NEEDED` asks for, and then goes on to `k` (R157). -/
def Session.generateFrame {α : Type} (engine : Nat → Int × Int) (n : Nat) (k : Session → MacroResult α)
    (h : Session) : MacroResult α :=
  h.issue (.needed n) fun m h =>
    Session.engineGenerate engine m.data.toNat 0 (h.engine (.generate m.data.toNat)) fun h =>
      h.issue .endframe fun _ h => k h

section
variable {α : Type} {engine : Nat → Int × Int} (hfits : ∀ t, fitsS16 (engine t).1 = true ∧ fitsS16 (engine t).2 = true)
include hfits

/-- What the engine generates is pushed, sample by sample (R150). -/
theorem Session.engineGenerate_eq (k : Session → MacroResult α) (m : Nat) : ∀ (t : Nat) (h : Session), ∃ s,
    runCommands (pushes (engineSamples engine m t)) h.hw = .next s ∧
      Session.engineGenerate engine m t h k = k { h with hw := s } := by
  induction m with
  | zero => exact fun t h => ⟨h.hw, rfl, rfl⟩
  | succ m ih =>
    intro t h
    obtain ⟨s, r, hs, hr⟩ := exec_answers (.push (engine t).1 (engine t).2) h.hw
    have hwf : (Instr.push (engine t).1 (engine t).2).wellFormed = true := Bool.and_eq_true_iff.2 (hfits t)
    obtain ⟨u, hrun, hgen⟩ := ih (t + 1) { h with hw := s }
    refine ⟨u, ?_, ?_⟩
    · exact (runCommands_cons _ hs).trans hrun
    · rw [Session.engineGenerate, Session.issue_of_exec _ hwf hs hr, hgen]

/-- The frame of `GENERATE` is as long as `NEEDED` answers (R157). -/
theorem Session.generateFrame_eq {n : Nat} {h : Session} {s : State} {d : DataWord} (hn : n < 2 ^ 32)
    (hs : exec (.needed n) h.hw = .next s) (hd : s.rsp = some ⟨true, d, []⟩) (k : Session → MacroResult α) :
    ∃ g, runCommands (pushes (engineSamples engine d.toNat 0) ++ [.endframe]) s = .next g.hw ∧
      h.generateFrame engine n k = k g := by
  have hwf : (Instr.needed n).wellFormed = true := decide_eq_true hn
  obtain ⟨u, hrun, hgen⟩ := Session.engineGenerate_eq hfits (fun h => h.issue .endframe fun _ h => k h) d.toNat 0
    ({ h with hw := s }.engine (.generate d.toNat))
  obtain ⟨t, r, ht, hr⟩ := exec_answers .endframe u
  refine ⟨{ { h with hw := s }.engine (.generate d.toNat) with hw := t }, ?_, ?_⟩
  · exact (runCommands_append_of_next _ hrun).trans (runCommands_cons [] ht)
  · rw [Session.generateFrame, Session.issue_of_exec _ hwf hs hd, hgen, Session.issue_of_exec _ rfl ht hr]

end

/-- `AVAIL` of a ready unit in lock-step (R89). -/
theorem execAvail_ready {s : State} (hs : s.Ready) (hlock : s.Lockstep) :
    exec .avail s = .next (s.done (BitVec.ofNat 32 s.left.avail)) := by
  obtain ⟨-, -, havail, -⟩ := hlock
  simp only [exec, execAvail, State.preCheck_normal hs.1 hs.2, ← havail, min_self]

/-- `NEEDED` of a ready unit in lock-step, for a count that is not refused (R88). -/
theorem execNeeded_ready {n : Nat} {s : State} (hs : s.Ready) (hlock : s.Lockstep) (hn : n ≤ Param.capacity) :
    exec (.needed n) s = .next (s.done (BitVec.ofNat 32 (s.left.needed s.factor n))) := by
  simp only [exec, execNeeded, State.preCheck_normal hs.1 hs.2, if_neg (Nat.not_lt.2 hn), hlock.needed_eq, max_self]

/-- `GENERATE` of a ready unit asks for the samples at hand, makes a frame for what is missing and pops the count (R157). -/
theorem Session.generate_ready (engine : Nat → Int × Int) (count : Nat) {h : Session} (hs : h.hw.Ready)
    (hlock : h.hw.Lockstep) (hcap : h.hw.left.avail ≤ Param.capacity) : ∃ r, h.generate engine count =
      if h.hw.left.avail < count
      then (h.answered r).generateFrame engine (count - h.hw.left.avail) (Session.popBeats count)
      else (h.answered r).popBeats count := by
  have havail : (BitVec.ofNat 32 h.hw.left.avail).toNat = h.hw.left.avail := by
    rw [Param.capacity_eq] at hcap
    rw [BitVec.toNat_ofNat, Nat.mod_eq_of_lt (by omega)]
  refine ⟨⟨true, BitVec.ofNat 32 h.hw.left.avail, []⟩, ?_⟩
  rw [Session.generate, Session.issue_status, State.statusResponse_flag, hs.1, Bool.not_true, if_neg Bool.false_ne_true,
    Session.issue_of_answer _ rfl (execAvail_ready (s := (h.answered h.hw.statusResponse).hw) hs hlock)]
  simp only [Session.answered_left, havail]
  rfl

/-! ### The beats -/

theorem sameFault_of_execPop {n : Nat} {s t : State} (h : exec (.pop n) s = .next t) : t.faultOvf = s.faultOvf := by
  cases exec_effect h with
  | answered | popped => rfl
  | overflowed hi => simp at hi
  | started _ hi | stopped hi | pushed _ _ hi | ended hi => simp at hi

/-- The `POP` that ends `GENERATE` returns the count if that many samples are there (R91, R157). -/
theorem Session.popBeats_delivers {n : Nat} (hn : n < 2 ^ 32) (h : Session) : ∃ h' beats,
    h.popBeats n = .next (h', beats) ∧ h'.hw.faultOvf = h.hw.faultOvf ∧
    (h.hw.Ready → n ≤ h.hw.left.avail → n ≤ h.hw.right.avail →
      beats.length = n ∧ h'.hw.left.tick = h.hw.left.tick ∧ h'.hw.right.tick = h.hw.right.tick) := by
  have hwf : (Instr.pop n).wellFormed = true := decide_eq_true hn
  obtain ⟨t, r, ht, hr⟩ := exec_answers (.pop n) h.hw
  refine ⟨{ h with hw := t }, r.beats, ?_, sameFault_of_execPop ht, fun hs hl hr' => ?_⟩
  · rw [Session.popBeats, Session.issue_of_exec _ hwf ht hr]
    rfl
  · obtain rfl := eq_of_execPop ht hs.1 hs.2
    obtain rfl := Option.some.inj hr
    simp [Channel.pop_length, Channel.popCount, hl, hr']

/-- Settles O56: where the buffer holds too few samples, the frame that `NEEDED` asks for brings the rest (R93). -/
theorem generateDeliversTheCount : Obligations.GenerateDeliversTheCount := by
  rintro engine count h ⟨-, hlock, hrange, -⟩ ha hf ht hcount hfits
  obtain ⟨htick, -, havail, -⟩ := id hlock
  obtain ⟨⟨hcap, ho, -⟩, -, hfactor, -⟩ := id hrange
  obtain ⟨hfactor, -⟩ := hfactor ha
  have hpos : 0 < h.hw.factor := by omega
  obtain ⟨r, hgen⟩ := Session.generate_ready engine count ⟨ha, hf⟩ hlock hcap
  by_cases hshort : h.hw.left.avail < count
  · rw [if_pos hshort] at hgen
    have hn : count - h.hw.left.avail ≤ Param.capacity := (Nat.sub_le _ _).trans hcount
    have hneeded := execNeeded_ready (s := (h.answered r).hw) ⟨ha, hf⟩ hlock hn
    have hlen := engineSamples_length engine (h.hw.left.needed h.hw.factor (count - h.hw.left.avail)) 0
    obtain ⟨g, hrun, hframe⟩ := Session.generateFrame_eq hfits (by omega) hneeded rfl (Session.popBeats count)
    obtain ⟨h', beats, hpop, hfault, hbeats⟩ := g.popBeats_delivers (n := count) (by omega)
    rw [Session.answered_left, Session.answered_factor, BitVec.toNat_ofNat,
      Nat.mod_eq_of_lt (Channel.needed_lt hfactor hn)] at hrun
    refine ⟨h', beats, (hgen.trans hframe).trans hpop, fun hok => ?_, fun hslow => ?_⟩
    · obtain ⟨hready, ⟨hl, hr⟩, htl, htr⟩ :=
        State.delivered_of_needed_frame hrun ⟨ha, hf⟩ hlock hpos ht hlen (hfault.symm.trans hok)
      rw [State.done_left, Session.answered_left] at hl hr
      obtain ⟨hlength, htl', htr'⟩ := hbeats hready (by omega) (by omega)
      exact ⟨hlength, htl'.trans htl, htr'.trans htr⟩
    · refine hfault.trans (State.faultOvf_eq_false_of_needed_frame hrun ⟨ha, hf⟩ hlock hpos ht hlen hslow ho ?_)
      rw [State.done_left, Session.answered_left, Param.capacity_eq]
      omega
  · rw [if_neg hshort] at hgen
    obtain ⟨h', beats, hpop, hfault, hbeats⟩ := (h.answered r).popBeats_delivers (n := count) (by omega)
    refine ⟨h', beats, hgen.trans hpop, fun _ => ?_, fun _ => hfault.trans hf⟩
    obtain ⟨hlength, hl, hr⟩ := hbeats ⟨ha, hf⟩ (Nat.not_lt.1 hshort) (havail ▸ Nat.not_lt.1 hshort)
    exact ⟨hlength, hl.trans ht, hr.trans (htick ▸ ht)⟩

end Sys2Proof.Machine
end

section
/-! Abnormal outcomes are answers: nothing stops the hardware, the pre-check answers for the data commands, and a command
that fails has no partial effect (R180 to R187). -/

namespace Sys2Proof.Machine

/-! ### Every step has a next state -/

/-- Every step has a next state: it waits, answers an illegal word, or carries out a command (R180, R181). -/
theorem step_total (s : State) : ∃ t, step s = .next t := by
  cases hp : s.pending with
  | nil => exact ⟨s, stepWithNothingIssuedChangesNothing s hp⟩
  | cons w rest =>
    rcases decode_command_or_illegal w with ⟨i, hd⟩ | hd
    · rw [stepCarriesOutTheDecodedCommand s w rest i hp hd]
      exact exec_total i _
    · exact ⟨_, step_illegal hp hd⟩

/-- Settles O10. -/
theorem nothingStopsTheHardware : Obligations.NothingStopsTheHardware := ⟨exec_total, step_total⟩

/-! ### The pre-check and the overflow fault -/

/-- The five data commands stand behind the pre-check, whatever their operands (R82). -/
theorem exists_preCheck_of_data_command {i : Instr}
    (hi : i = .endframe ∨ i = .avail ∨ (∃ l r, i = .push l r) ∨ (∃ n, i = .needed n) ∨ ∃ n, i = .pop n) (s : State) :
    ∃ normal, exec i s = .next (s.preCheck normal) := by
  rcases hi with rfl | rfl | ⟨l, r, rfl⟩ | ⟨n, rfl⟩ | ⟨n, rfl⟩
  all_goals exact ⟨_, rfl⟩

/-- Settles O18: neither answer of the pre-check depends on the command behind it. -/
theorem preCheckOfTheDataCommands : Obligations.PreCheckOfTheDataCommands := by
  intro i s hi
  obtain ⟨normal, hexec⟩ := exists_preCheck_of_data_command hi s
  refine ⟨fun ha => ?_, fun ha hf => ?_⟩
  · rw [hexec, State.preCheck_inactive ha]
    rfl
  · rw [hexec, State.preCheck_faulted ha hf]
    rfl

/-- Beyond the capacity in either channel a push is the overflow fault and nothing else (R83, R182). -/
theorem execPush_overflowed {l r : Int} {s : State} (ha : s.active = true) (hf : s.faultOvf = false)
    (ho : Param.capacity < s.left.pushIndex s.factor ∨ Param.capacity < s.right.pushIndex s.factor) :
    exec (.push l r) s = .next s.overflowFault := by
  rw [execPush_running ha hf, if_pos ho]

/-- The end of a frame overflows where a push would (R85, R182). -/
theorem execEndframe_overflowed {s : State} (ha : s.active = true) (hf : s.faultOvf = false)
    (ho : Param.capacity < s.left.pushIndex s.factor ∨ Param.capacity < s.right.pushIndex s.factor) :
    exec .endframe s = .next s.overflowFault := by
  rw [execEndframe_running ha hf, if_pos ho]

/-- Settles O19: the two overflow tests written out. -/
theorem overflowFaultSetsOneBit : Obligations.OverflowFaultSetsOneBit :=
  fun _ _ _ ha hf ho => ⟨execPush_overflowed ha hf ho, execEndframe_overflowed ha hf ho⟩

/-! ### Failed commands -/

/-- The ways a command issued in state `s` can end, told apart by its answer: the two reasons of R183 that refuse a decoded
command, the overflow fault, and every success. -/
inductive Concluded (s : State) : State → Prop where
  | succeeded {t : State} (data : DataWord) (beats : List Beat) (hr : t.rsp = some ⟨true, data, beats⟩) : Concluded s t
  | refused (reason : Reason) (hr : reason = .badOperand ∨ reason = .faulted) : Concluded s (s.refuse reason)
  | overflowed : Concluded s s.overflowFault

theorem Concluded.done (s t : State) (d : DataWord) : Concluded s (t.done d) := .succeeded d [] rfl

theorem Concluded.badOperand (s : State) : Concluded s (s.refuse .badOperand) := .refused _ (.inl rfl)

theorem Concluded.ite {s t u : State} {c : Prop} [Decidable c] (ht : Concluded s t) (hu : Concluded s u) :
    Concluded s (if c then t else u) := by
  split
  · exact ht
  · exact hu

/-- The pre-check adds a success without effect and the refusal of the faulted state (R82). -/
theorem Concluded.preCheck {s normal : State} (h : Concluded s normal) : Concluded s (s.preCheck normal) :=
  .ite (.ite (.refused _ (.inr rfl)) h) (.done ..)

/-- Every command ends in one of these ways; only a command with a test of its operand, or behind the pre-check, can fail
(R183). -/
theorem exec_concluded {i : Instr} {s t : State} (h : exec i s = .next t) : Concluded s t := by
  cases i <;> cases h
  case start => exact .ite (.done ..) (.ite (.badOperand s) (.done ..))
  case stop => exact .ite (.done ..) (.done ..)
  case push | endframe => exact .preCheck (.ite .overflowed (.done ..))
  case needed => exact .preCheck (.ite (.badOperand s) (.done ..))
  case avail => exact .preCheck (.done ..)
  case pop => exact .preCheck (.succeeded _ _ rfl)
  case noteFnum => exact .ite (.badOperand s) (.done ..)
  case keyOn | keyOff => exact .ite (.done ..) (.done ..)
  all_goals exact .done ..

/-- Settles O22: of the ways a command can end, only a refusal and the overflow fault answer `rsp_ok = 0`. -/
theorem failedCommandsHaveNoPartialEffect : Obligations.FailedCommandsHaveNoPartialEffect := by
  intro i s t r h hr hfail
  cases exec_concluded h with
  | succeeded d beats hok =>
    obtain rfl := Option.some.inj (hok.symm.trans hr)
    simp at hfail
  | refused reason hreason =>
    obtain rfl := Option.some.inj hr
    rcases hreason with rfl | rfl
    · exact ⟨rfl, .inr ⟨.inl rfl, rfl⟩⟩
    · exact ⟨rfl, .inr ⟨.inr rfl, rfl⟩⟩
  | overflowed =>
    obtain rfl := Option.some.inj hr
    exact ⟨rfl, .inl ⟨rfl, rfl⟩⟩

end Sys2Proof.Machine
end

section
/-! What follows a `STOP` is what follows power-on reset: `STOP` leaves the reset values but for the last response, and no
command reads that response (R81, R201). -/

namespace Sys2Proof.Machine

/-- Power-on reset with the configuration of `s` and the words that wait at its port (R200). -/
def State.afterReset (s : State) : State := { State.reset with cfg := s.cfg, pending := s.pending }

/-- A command writes the last response and never reads it (R61). -/
theorem exec_of_last_response (i : Instr) (s : State) (r : Option Response) : exec i { s with rsp := r } = exec i s := by
  cases i <;> rfl

/-- The first command of a run replaces the last response, so the run does not depend on it. -/
theorem runCommands_cons_of_last_response (i : Instr) (rest : List Instr) (s : State) (r : Option Response) :
    runCommands (i :: rest) { s with rsp := r } = runCommands (i :: rest) s := by
  simp only [runCommands, exec_of_last_response]

/-- An inactive unit in range holds the power-on values (R23). -/
theorem State.eq_afterReset_of_cleared {s : State} (ha : s.active = false) (h : s.Cleared) :
    s = { s.afterReset with rsp := s.rsp } := by
  obtain ⟨cfg, active, factor, faultOvf, left, right, pending, rsp⟩ := s
  obtain ⟨hfactor, hfault, hleft, hright⟩ := h
  subst ha hfactor hfault hleft hright
  rfl

/-- `STOP` of a unit in range leaves the power-on values, whether or not there was a session (R81, R23). -/
theorem execStop_inRange {s : State} (h : s.InRange) : ∃ r, exec .stop s = .next { s.afterReset with rsp := r } := by
  obtain ⟨-, -, -, hidle⟩ := h
  cases ha : s.active with
  | true => exact ⟨_, execStop_active ha⟩
  | false => exact ⟨_, congrArg (exec .stop) (State.eq_afterReset_of_cleared ha (hidle ha))⟩

/-- Settles O17: the states after the `STOP` and after reset differ in the last response only, so from the first command on
the two runs are one. -/
theorem afterStopIsAfterReset : Obligations.AfterStopIsAfterReset := by
  intro s t is hrange h
  obtain ⟨r, hstop⟩ := execStop_inRange hrange
  rw [runCommands_cons is hstop] at h
  cases is with
  | nil =>
    obtain rfl := Host.Outcome.next.inj h
    exact ⟨s.afterReset, rfl, ⟨rfl, rfl, rfl, rfl, rfl, rfl⟩, fun hne => absurd rfl hne⟩
  | cons i rest =>
    rw [runCommands_cons_of_last_response] at h
    exact ⟨t, h, ⟨rfl, rfl, rfl, rfl, rfl, rfl⟩, fun _ => rfl⟩

end Sys2Proof.Machine
end
